-- ==== Sys2Proof/Word.lean ====
section
/-! DEFINITION. The value types of the engine whose width does not depend on the variant, and the one
width-generic conversion the spec names. Words of memory, of A, B, OUT and of the bus are `BitVec W` with the W
of the configuration (spec/00_scope.md R5, R8). -/

namespace Sys2Proof

/-- A pending key code: `KEY_W` = 8 bits (spec/00_scope.md R5, spec/10_state.md R36). -/
abbrev KeyCode := BitVec 8

/-- The operand field of an instruction as the syntax carries it: 8 bits, the widest operand field of the two
variants (H = 8 in EXT; in BASE a well-formed operand is below 2^4; spec/30_encoding.md R80). -/
abbrev Operand := BitVec 8

end Sys2Proof
end

