-- ==== Sys2Proof/Config.lean ====
section
/-! DEFINITION. The variant and the parameters of spec/00_scope.md R2, R5, R6. They are fixed for the life of an
engine (R7) and are parameters of the pulse function, not state (spec/10_state.md R39). The spec leaves no value
open that an instruction computes, so no opaque free value stands here. -/

namespace Sys2Proof

/-- The two architecture variants (spec/00_scope.md R2). -/
inductive Variant
  | base
  | ext
deriving DecidableEq, Repr

/-- Word width W: memory words, A, B, OUT, the display registers and the bus (spec/00_scope.md R5). -/
@[reducible] def Variant.wordWidth : Variant → Nat
  | .base => 8
  | .ext => 16

/-- Half-word width H = W/2: opcode field, operand field, IR_A, IR_B, PC, MAR (spec/00_scope.md R5). -/
@[reducible] def Variant.halfWidth : Variant → Nat
  | .base => 4
  | .ext => 8

/-- Memory size M = 2^H words (spec/00_scope.md R5). -/
@[reducible] def Variant.memSize : Variant → Nat
  | .base => 16
  | .ext => 256

/-- The parameters of an engine. The proof field is the admission condition of spec/00_scope.md R6, so that a
configuration the spec refuses cannot be built (R245: nothing is said of a run under one). -/
structure Config where
  variant : Variant
  /-- first address of the stack window -/
  stackBase : Nat
  /-- number of words in the stack window -/
  stackCap : Nat
  admitted : 1 ≤ stackCap ∧ stackBase + stackCap ≤ variant.memSize
deriving DecidableEq, Repr

/-- W of a configuration. -/
@[reducible] def Config.wordWidth (c : Config) : Nat := c.variant.wordWidth

/-- H of a configuration. -/
@[reducible] def Config.halfWidth (c : Config) : Nat := c.variant.halfWidth

/-- M of a configuration. -/
@[reducible] def Config.memSize (c : Config) : Nat := c.variant.memSize

/-- The default BASE parameters: STACK_BASE = 0, STACK_CAP = 1, both unused (spec/00_scope.md R5). -/
def Config.baseDefault : Config := ⟨.base, 0, 1, by decide⟩

/-- The default EXT parameters: STACK_BASE = 0xF0, STACK_CAP = 16 (spec/00_scope.md R5). -/
def Config.extDefault : Config := ⟨.ext, 0xF0, 16, by decide⟩

/-- A configuration from raw parameters, refused where spec/00_scope.md R6 is violated. -/
def Config.ofParameters (v : Variant) (stackBase stackCap : Nat) : Option Config :=
  if h : 1 ≤ stackCap ∧ stackBase + stackCap ≤ v.memSize then some ⟨v, stackBase, stackCap, h⟩ else none

end Sys2Proof
end

