-- ==== Sys2Proof/Syntax.lean ====
section
/-! DEFINITION. The instructions: one constructor for each opcode descriptor of spec/30_encoding.md R88. The rows of
spec/opcode_table.json are 35: an opcode that both variants have stands there twice (a BASE row and an EXT row), and
R89 says the two rows are the same instruction; the variant decides the width of the encoding
(notes/assumptions/10.md). -/

namespace Sys2Proof

/-- An instruction with its operand field. For operand kind `none` the field `x` is ignored by the instruction
(spec/30_encoding.md R83), but fetch still loads it into IR_B (spec/10_state.md R26), so the syntax keeps it. -/
inductive Instr
  /-- R210: no operation -/
  | nop (x : Operand)
  /-- R150: load A from memory -/
  | lda (a : Operand)
  /-- R160: add memory to A -/
  | add (a : Operand)
  /-- R161: subtract memory from A -/
  | sub (a : Operand)
  /-- R151: store A to memory -/
  | sta (a : Operand)
  /-- R152: load immediate into A -/
  | ldi (v : Operand)
  /-- R170: jump -/
  | jmp (t : Operand)
  /-- R171: jump if carry -/
  | jc (t : Operand)
  /-- R172: jump if zero -/
  | jz (t : Operand)
  /-- R162: shift A left by one -/
  | shl (x : Operand)
  /-- R163: shift A right by one, logical -/
  | shr (x : Operand)
  /-- R192: read the pending key code into A -/
  | key (x : Operand)
  /-- R191: output A -/
  | out (x : Operand)
  /-- R211: halt -/
  | hlt (x : Operand)
  /-- R181: push A (EXT only) -/
  | psh (x : Operand)
  /-- R182: pop into A (EXT only) -/
  | pop (x : Operand)
  /-- R173: call (EXT only) -/
  | cal (t : Operand)
  /-- R174: return (EXT only) -/
  | ret (x : Operand)
  /-- R183: load stack pointer from A (EXT only) -/
  | lsp (x : Operand)
  /-- R199: write A to the display data register (EXT only) -/
  | dsd (x : Operand)
  /-- R200: write A to the display control register (EXT only) -/
  | dsc (x : Operand)
deriving DecidableEq, Repr

/-- The 21 opcodes by their mnemonics (spec/30_encoding.md R88): an instruction less its operand field. It is what
the decoder sees in IR_A, and the key of the descriptor table. -/
inductive Opcode
  | nop | lda | add | sub | sta | ldi | jmp | jc | jz | shl | shr | key | out | hlt
  | psh | pop | cal | ret | lsp | dsd | dsc
deriving DecidableEq, Repr

/-- The opcode of an instruction. -/
def Instr.opcode : Instr → Opcode
  | .nop _ => .nop
  | .lda _ => .lda
  | .add _ => .add
  | .sub _ => .sub
  | .sta _ => .sta
  | .ldi _ => .ldi
  | .jmp _ => .jmp
  | .jc _ => .jc
  | .jz _ => .jz
  | .shl _ => .shl
  | .shr _ => .shr
  | .key _ => .key
  | .out _ => .out
  | .hlt _ => .hlt
  | .psh _ => .psh
  | .pop _ => .pop
  | .cal _ => .cal
  | .ret _ => .ret
  | .lsp _ => .lsp
  | .dsd _ => .dsd
  | .dsc _ => .dsc

/-- The operand field of an instruction. -/
def Instr.operand : Instr → Operand
  | .nop x => x
  | .lda a => a
  | .add a => a
  | .sub a => a
  | .sta a => a
  | .ldi v => v
  | .jmp t => t
  | .jc t => t
  | .jz t => t
  | .shl x => x
  | .shr x => x
  | .key x => x
  | .out x => x
  | .hlt x => x
  | .psh x => x
  | .pop x => x
  | .cal t => t
  | .ret x => x
  | .lsp x => x
  | .dsd x => x
  | .dsc x => x

/-- The instruction of an opcode and an operand field. -/
def Opcode.instr : Opcode → Operand → Instr
  | .nop, x => .nop x
  | .lda, a => .lda a
  | .add, a => .add a
  | .sub, a => .sub a
  | .sta, a => .sta a
  | .ldi, v => .ldi v
  | .jmp, t => .jmp t
  | .jc, t => .jc t
  | .jz, t => .jz t
  | .shl, x => .shl x
  | .shr, x => .shr x
  | .key, x => .key x
  | .out, x => .out x
  | .hlt, x => .hlt x
  | .psh, x => .psh x
  | .pop, x => .pop x
  | .cal, t => .cal t
  | .ret, x => .ret x
  | .lsp, x => .lsp x
  | .dsd, x => .dsd x
  | .dsc, x => .dsc x

end Sys2Proof
end

