-- ==== Sys2Proof/WellFormed.lean ====
section
/-! DEFINITION. Which instructions a variant can encode: the opcode has a descriptor there and the operand fits the
H-bit operand field (spec/30_encoding.md R80, R88, R90). -/

namespace Sys2Proof

/-- Whether an opcode has a descriptor in a variant: the BASE and EXT columns of spec/30_encoding.md R88. -/
def Opcode.existsIn : Opcode → Variant → Bool
  | _, .ext => true
  | .nop, .base => true
  | .lda, .base => true
  | .add, .base => true
  | .sub, .base => true
  | .sta, .base => true
  | .ldi, .base => true
  | .jmp, .base => true
  | .jc, .base => true
  | .jz, .base => true
  | .shl, .base => true
  | .shr, .base => true
  | .key, .base => true
  | .out, .base => true
  | .hlt, .base => true
  | .psh, .base => false
  | .pop, .base => false
  | .cal, .base => false
  | .ret, .base => false
  | .lsp, .base => false
  | .dsd, .base => false
  | .dsc, .base => false

/-- The operand fits the operand field of the variant: below 2^H (spec/30_encoding.md R80, R82). -/
def Instr.operandFits (v : Variant) (i : Instr) : Bool := decide (i.operand.toNat < 2 ^ v.halfWidth)

/-- An instruction that some word of the variant encodes. -/
def WellFormed (v : Variant) (i : Instr) : Bool := i.opcode.existsIn v && i.operandFits v

end Sys2Proof
end

