-- ==== Sys2Proof/Decode.lean ====
section
/-! DEFINITION. The instruction word (spec/30_encoding.md R80), the opcode map (R90), the decoder, total on every
word and rejecting by name (R91), and the encoder. -/

namespace Sys2Proof

/-- The opcode field, word bits W-1..H, loaded into IR_A by signal II (spec/30_encoding.md R80, spec/40 R106). -/
def opcodeField (v : Variant) (w : BitVec v.wordWidth) : BitVec v.halfWidth :=
  w.extractLsb' v.halfWidth v.halfWidth

/-- The operand field, word bits H-1..0, loaded into IR_B by signal II (spec/30_encoding.md R80). -/
def operandField (v : Variant) (w : BitVec v.wordWidth) : BitVec v.halfWidth :=
  w.extractLsb' 0 v.halfWidth

/-- `{opcode, operand}` = opcode · 2^H + operand (spec/30_encoding.md R80, spec/00_scope.md R9). -/
def joinFields (v : Variant) (op operand : Nat) : BitVec v.wordWidth :=
  BitVec.ofNat v.wordWidth (op * 2 ^ v.halfWidth + operand)

/-- The numeric code of an opcode (spec/30_encoding.md R88, first column). -/
def Opcode.code : Opcode → Nat
  | .nop => 0x00
  | .lda => 0x01
  | .add => 0x02
  | .sub => 0x03
  | .sta => 0x04
  | .ldi => 0x05
  | .jmp => 0x06
  | .jc => 0x07
  | .jz => 0x08
  | .shl => 0x09
  | .shr => 0x0A
  | .key => 0x0B
  | .out => 0x0E
  | .hlt => 0x0F
  | .psh => 0x10
  | .pop => 0x11
  | .cal => 0x12
  | .ret => 0x13
  | .lsp => 0x14
  | .dsd => 0x15
  | .dsc => 0x16

/-- The BASE opcode map (spec/30_encoding.md R90, first table). -/
def baseOpcodeMap : Nat → Option Opcode
  | 0x0 => some .nop
  | 0x1 => some .lda
  | 0x2 => some .add
  | 0x3 => some .sub
  | 0x4 => some .sta
  | 0x5 => some .ldi
  | 0x6 => some .jmp
  | 0x7 => some .jc
  | 0x8 => some .jz
  | 0x9 => some .shl
  | 0xA => some .shr
  | 0xB => some .key
  | 0xE => some .out
  | 0xF => some .hlt
  | _ => none

/-- The codes EXT adds to the BASE map (spec/30_encoding.md R90). -/
def extOnlyOpcodeMap : Nat → Option Opcode
  | 0x10 => some .psh
  | 0x11 => some .pop
  | 0x12 => some .cal
  | 0x13 => some .ret
  | 0x14 => some .lsp
  | 0x15 => some .dsd
  | 0x16 => some .dsc
  | _ => none

/-- The opcode map of a variant; `none` is an invalid opcode (spec/30_encoding.md R90, R91). -/
def opcodeOf (v : Variant) (code : BitVec v.halfWidth) : Option Opcode :=
  match v with
  | .base => baseOpcodeMap code.toNat
  | .ext => if code.toNat < 0x10 then baseOpcodeMap code.toNat else extOnlyOpcodeMap code.toNat

/-- Why a word is not an instruction. -/
inductive DecodeError
  /-- The opcode field has no descriptor in the variant (spec/30_encoding.md R91): it carries that field. -/
  | invalidOpcode (op : Nat)
deriving DecidableEq, Repr

/-- The decoder: total on every word of the variant (spec/30_encoding.md R91: every word either decodes to an
instruction of R88, whatever its operand bits, or is invalid). -/
def decode (v : Variant) (w : BitVec v.wordWidth) : Except DecodeError Instr :=
  match opcodeOf v (opcodeField v w) with
  | some op => .ok (op.instr ((operandField v w).setWidth 8))
  | none => .error (.invalidOpcode (opcodeField v w).toNat)

/-- The encoder: `{code, operand}` (spec/30_encoding.md R80, R88), for an instruction the variant can encode. -/
def encode (v : Variant) (i : Instr) : BitVec v.wordWidth :=
  joinFields v i.opcode.code i.operand.toNat

/-- The variant whose rows of the opcode table have `nbits` bits: one word is 8 bits in BASE and 16 in EXT. -/
def tableVariant (nbits : Nat) : Variant := if nbits ≤ 8 then .base else .ext

/-- What the decoder reads from a word of the opcode table: an instruction is one whole memory word of its variant
(spec/30_encoding.md R80), so no byte order enters (spec/20_memory.md R53). -/
def decodeTableWord (nbits w : Nat) : Option Instr :=
  (decode (tableVariant nbits) (BitVec.ofNat _ w)).toOption

end Sys2Proof
end

