-- ==== Sys2Proof/Machine/State.lean ====
section
/-! DEFINITION. The state of the machine as plain data (spec/10_state.md R20), the types its fields need, the reasons
a step can stop, and the state after reset (spec/70_reset_and_hazards.md R250, R258). -/

namespace Sys2Proof.Machine

/-- The 27 control signals (spec/40_pulse_engine.md R101), in the order of its table. -/
inductive Signal
  | co | ro | io | ao | eo | ko | spo
  | mi | ri | ii | ai | bi | oi | ju | jcy | jzr | spu | spl | di | dc
  | ce | su | fi | sl | sr | halt | orst
deriving DecidableEq, Repr

/-- A control word: a set of signals (spec/40_pulse_engine.md R103), written as a list and read through membership
only (notes/assumptions/9.md). -/
abbrev ControlWord := List Signal

/-- The defensive checks K1 to K9 (spec/40_pulse_engine.md R119). -/
inductive Check
  | k1 | k2 | k3 | k4 | k5 | k6 | k7 | k8 | k9
deriving DecidableEq, Repr

/-- The values of the `fault` field (spec/60_exceptions.md R221), with the information each records. -/
inductive FaultValue (v : Variant)
  /-- code 0: no fault; with `halted`, a normal halt (spec/10_state.md R35) -/
  | none
  /-- code 1: the opcode field in IR_A has no descriptor (R223) -/
  | invalidOpcode (op : BitVec v.halfWidth)
  /-- code 2: the control word failed a check (R225) -/
  | busOrJumpContentionInvariant (cw : ControlWord) (check : Check)
  /-- code 3: the value that was to be loaded into MAR or PC is at least M (R222) -/
  | addressOutOfRange (addr : BitVec v.wordWidth)
deriving DecidableEq, Repr

/-- The microstep, 1 to MAX_STEPS = 7 (spec/10_state.md R32, R33, spec/00_scope.md R5). -/
inductive Microstep
  | t1 | t2 | t3 | t4 | t5 | t6 | t7
deriving DecidableEq, Repr

/-- What the core tells the host (spec/45_io.md R190, R198). -/
inductive Event (w : Nat)
  | output (value : BitVec w)
  | displayData (value : BitVec w)
  | displayControl (value : BitVec w)
deriving DecidableEq, Repr

/-- Memory as (address, word) pairs in one canonical form (`Memory.wf`): addresses strictly rising, no word 0, which is
what an unlisted address reads as (spec/70_reset_and_hazards.md R258). The cell is the word because memory has no
bytes (spec/20_memory.md R52, R53; notes/assumptions/7.md). -/
abbrev Memory (w : Nat) := List (Nat × BitVec w)

/-- The CPU state and memory of one engine (spec/10_state.md R20; spec/00_scope.md R14), in the widths of its
configuration. -/
structure Engine (c : Config) where
  /-- PC, H bits (R24) -/
  pc : BitVec c.halfWidth
  /-- MAR, H bits (R25) -/
  mar : BitVec c.halfWidth
  /-- IR_A, the opcode half (R26) -/
  irA : BitVec c.halfWidth
  /-- IR_B, the operand half (R26) -/
  irB : BitVec c.halfWidth
  /-- A, the accumulator (R23) -/
  a : BitVec c.wordWidth
  /-- B, the second ALU operand (R23) -/
  b : BitVec c.wordWidth
  /-- OUT (R27) -/
  out : BitVec c.wordWidth
  /-- the latched carry flag (R29) -/
  carry : Bool
  /-- the latched zero flag (R30) -/
  zero : Bool
  /-- SP, a counter over [0, STACK_CAP) (R28) -/
  sp : Fin c.stackCap
  /-- microstep (R33) -/
  microstep : Microstep
  /-- halted (R34) -/
  halted : Bool
  /-- fault (R35) -/
  fault : FaultValue c.variant
  /-- KEY, written by the host only (R36) -/
  key : KeyCode
  /-- DISP_DATA (R37) -/
  dispData : BitVec c.wordWidth
  /-- DISP_CTRL (R37) -/
  dispCtrl : BitVec c.wordWidth
  /-- the memory (spec/20_memory.md R50) -/
  mem : Memory c.wordWidth
  /-- the events emitted so far, oldest first: the MODEL's own field (notes/assumptions/4.md); nothing reads it -/
  events : List (Event c.wordWidth)
deriving DecidableEq, Repr

/-- The clock driver's state (spec/40_pulse_engine.md R135, R136). -/
structure Clock where
  /-- the target pulse frequency -/
  targetHz : Rat
  /-- the fractional accumulator -/
  acc : Rat
deriving DecidableEq, Repr

/-- The machine: an engine, the configuration it was built for (immutable, spec/00_scope.md R7), and its clock
driver. -/
structure State where
  cfg : Config
  engine : Engine cfg
  clock : Clock
deriving DecidableEq, Repr

/-- The reasons a step can end in the fault outcome: none. Every fault of spec/60_exceptions.md is ENTERED (R224): a
next state with `halted` and `fault` set, as `raise` gives it; and no access can name an address outside memory
(spec/20_memory.md R58). Safe: there is no such outcome to rely on. -/
inductive Fault
deriving DecidableEq, Repr

/-- The reasons `exec` can refuse. -/
inductive Refusal
  /-- Raised by an arm of `exec` whose instruction has no meaning yet; safe. No arm does. -/
  | notModelled (mnemonic : String)
  /-- Raised by the seven EXT-only instructions on a BASE engine, where they do not exist (spec/30_encoding.md R88;
  notes/assumptions/8.md); safe: no BASE word decodes to one, so no step answers it. -/
  | notInVariant (mnemonic : String)
deriving DecidableEq, Repr

/-- An engine right after construction with no image: every register at its reset value
(spec/70_reset_and_hazards.md R250), KEY = 0 and every memory word 0 (R258). -/
def Engine.initial (c : Config) : Engine c where
  pc := 0
  mar := 0
  irA := 0
  irB := 0
  a := 0
  b := 0
  out := 0
  carry := false
  zero := false
  sp := ⟨0, c.admitted.1⟩
  microstep := .t1
  halted := false
  fault := .none
  key := 0
  dispData := 0
  dispCtrl := 0
  mem := []
  events := []

/-- The machine right after construction with no image and reset, for any configuration. The clock driver's two values
before the first `configure` are a DESIGN CHOICE (notes/assumptions/5.md). -/
def State.initial (c : Config) : State where
  cfg := c
  engine := Engine.initial c
  clock := { targetHz := 0, acc := 0 }

/-- The machine right after reset: the EXT variant with its default stack window (which of the two variants this one
state has is a DESIGN CHOICE, notes/assumptions/1.md; the registers are those of spec/70_reset_and_hazards.md R250). -/
def State.reset : State := State.initial Config.extDefault

end Sys2Proof.Machine
end

