-- ==== Sys2Proof/Machine/Ops.lean ====
section
/-! DEFINITION. The named operations over memory, the program counter, the stack pointer and the microstep, fault entry
(taking an exception) and reset (the only way back from one). -/

namespace Sys2Proof.Machine

/-- The word at an address; an unlisted address reads as 0 (spec/70_reset_and_hazards.md R258: an address no image
names holds 0). -/
def Memory.read {w : Nat} : Memory w → Nat → BitVec w
  | [], _ => 0#w
  | (k, x) :: m, a => if a < k then 0#w else if a = k then x else Memory.read m a

/-- Memory with one word replaced, in canonical form: writing 0 leaves no entry (spec/00_scope.md R10 `MemWrite`). -/
def Memory.write {w : Nat} : Memory w → Nat → BitVec w → Memory w
  | [], a, v => if v = 0#w then [] else [(a, v)]
  | (k, x) :: m, a, v =>
    if a < k then (if v = 0#w then (k, x) :: m else (a, v) :: (k, x) :: m)
    else if a = k then (if v = 0#w then m else (k, v) :: m)
    else (k, x) :: Memory.write m a v

/-- Addresses strictly rising from `lo`, all below `size`, no word 0. -/
def Memory.wfFrom {w : Nat} (size : Nat) : Nat → Memory w → Bool
  | _, [] => true
  | lo, (k, x) :: m => decide (lo ≤ k) && decide (k < size) && decide (x ≠ 0#w) && Memory.wfFrom size (k + 1) m

/-- The canonical form of a memory of `size` words. -/
def Memory.wf {w : Nat} (size : Nat) (m : Memory w) : Bool := Memory.wfFrom size 0 m

/-- `zext_W`: an H-bit value (PC, IR_B) on the W-bit bus (spec/00_scope.md R9). -/
def onBus (c : Config) (x : BitVec c.halfWidth) : BitVec c.wordWidth := x.setWidth c.wordWidth

/-- A bus value below M as the H-bit value that PC or MAR takes (spec/40_pulse_engine.md R113). -/
def fromBus (c : Config) (x : BitVec c.wordWidth) : BitVec c.halfWidth := x.setWidth c.halfWidth

/-- Signal CE: PC + 1 modulo M; M = 2^H, so the H-bit sum wraps there (spec/40_pulse_engine.md R112). -/
def pcAfter (c : Config) (pc : BitVec c.halfWidth) : BitVec c.halfWidth := pc + 1

/-- (SP + 1) mod STACK_CAP (spec/40_pulse_engine.md R116, signal SPU). -/
def spUp (c : Config) (sp : Fin c.stackCap) : Fin c.stackCap :=
  ⟨(sp.val + 1) % c.stackCap, Nat.mod_lt _ c.admitted.1⟩

/-- (SP + STACK_CAP - 1) mod STACK_CAP (spec/40_pulse_engine.md R116, R120, signal SPO). -/
def spDown (c : Config) (sp : Fin c.stackCap) : Fin c.stackCap :=
  ⟨(sp.val + c.stackCap - 1) % c.stackCap, Nat.mod_lt _ c.admitted.1⟩

/-- A bus value modulo STACK_CAP (spec/40_pulse_engine.md R116, signal SPL). -/
def spOf (c : Config) (x : BitVec c.wordWidth) : Fin c.stackCap :=
  ⟨x.toNat % c.stackCap, Nat.mod_lt _ c.admitted.1⟩

/-- The stack effective address STACK_BASE + SP (spec/44_stack.md R180). -/
def stackAddr (c : Config) (sp : Fin c.stackCap) : Nat := c.stackBase + sp.val

/-- The 1-based number of a microstep (spec/10_state.md R33). -/
def Microstep.number : Microstep → Nat
  | .t1 => 1
  | .t2 => 2
  | .t3 => 3
  | .t4 => 4
  | .t5 => 5
  | .t6 => 6
  | .t7 => 7

/-- microstep + 1 (spec/40_pulse_engine.md R117). At 7 a pulse without ORST faults by check K9 before this is used. -/
def Microstep.succ : Microstep → Microstep
  | .t1 => .t2
  | .t2 => .t3
  | .t3 => .t4
  | .t4 => .t5
  | .t5 => .t6
  | .t6 => .t7
  | .t7 => .t7

/-- Whether a signal is in a control word (spec/00_scope.md R11). -/
def ControlWord.has (cw : ControlWord) (s : Signal) : Bool := cw.contains s

/-- The 27 signals in the order of spec/40_pulse_engine.md R101. -/
def Signal.all : List Signal :=
  [.co, .ro, .io, .ao, .eo, .ko, .spo,
   .mi, .ri, .ii, .ai, .bi, .oi, .ju, .jcy, .jzr, .spu, .spl, .di, .dc,
   .ce, .su, .fi, .sl, .sr, .halt, .orst]

/-- The set a control word stands for, listed in the order of R101: what a fault records (notes/assumptions/9.md). -/
def ControlWord.asSet (cw : ControlWord) : ControlWord := Signal.all.filter cw.has

/-- The numeric code of a fault value (spec/60_exceptions.md R221). -/
def FaultValue.code {v : Variant} : FaultValue v → Nat
  | .none => 0
  | .invalidOpcode _ => 1
  | .busOrJumpContentionInvariant _ _ => 2
  | .addressOutOfRange _ => 3

/-- Fault entry, the one way an exception is taken (spec/60_exceptions.md R224): no write of the pulse, no event, only
`halted` and `fault` change; `microstep` keeps the value of the faulting pulse. -/
def Engine.raise {c : Config} (f : FaultValue c.variant) (e : Engine c) : Engine c :=
  { e with halted := true, fault := f }

/-- Reset (spec/70_reset_and_hazards.md R250, R251), the only way out of HALTED (spec/60_exceptions.md R228): KEY and
memory are unchanged, no event is emitted. -/
def Engine.applyReset {c : Config} (e : Engine c) : Engine c :=
  { e with
    pc := 0, mar := 0, irA := 0, irB := 0, a := 0, b := 0, out := 0
    carry := false, zero := false, sp := ⟨0, c.admitted.1⟩, microstep := .t1
    halted := false, fault := .none, dispData := 0, dispCtrl := 0 }

end Sys2Proof.Machine
end

