-- ==== Sys2Proof/Machine/Flags.lean ====
section
/-! DEFINITION. The ALU and the shifts with their flag rules (spec/40_pulse_engine.md R107, R108, R115, R124,
spec/42_arithmetic.md R165). Exact integers first, narrowed at the end, as the spec computes them. -/

namespace Sys2Proof.Machine

/-- A W-bit result with the carry and zero that go with it. -/
structure AluOut (w : Nat) where
  result : BitVec w
  carry : Bool
  zero : Bool
deriving DecidableEq, Repr

/-- The ALU adding: raw = a + b unbounded, carry = raw > 2^W - 1 (spec/40_pulse_engine.md R108). -/
def aluAdd {w : Nat} (a b : BitVec w) : AluOut w :=
  let raw := a.toNat + b.toNat
  let result := BitVec.ofNat w raw
  { result := result, carry := decide (2 ^ w - 1 < raw), zero := decide (result = 0) }

/-- The ALU subtracting: raw = a - b over the integers, result = raw mod 2^W, carry = (a ≥ b)
(spec/40_pulse_engine.md R108). -/
def aluSub {w : Nat} (a b : BitVec w) : AluOut w :=
  let raw : Int := (a.toNat : Int) - (b.toNat : Int)
  let result := BitVec.ofInt w raw
  { result := result, carry := decide (b.toNat ≤ a.toNat), zero := decide (result = 0) }

/-- `ALU(a, b, sub)` (spec/40_pulse_engine.md R108). -/
def alu {w : Nat} (a b : BitVec w) (sub : Bool) : AluOut w := if sub then aluSub a b else aluAdd a b

/-- Signal SL: (A · 2) mod 2^W, carry = A[W-1], zero of the shifted result (spec/40_pulse_engine.md R115). -/
def shiftLeft {w : Nat} (a : BitVec w) : AluOut w :=
  let result := BitVec.ofNat w (a.toNat * 2)
  { result := result, carry := a.getLsbD (w - 1), zero := decide (result = 0) }

/-- Signal SR: A div 2, logical, carry = A[0], zero of the shifted result (spec/40_pulse_engine.md R115). -/
def shiftRight {w : Nat} (a : BitVec w) : AluOut w :=
  let result := BitVec.ofNat w (a.toNat / 2)
  { result := result, carry := a.getLsbD 0, zero := decide (result = 0) }

end Sys2Proof.Machine
end

