-- ==== Sys2Proof/Machine/Operands.lean ====
section
/-! DEFINITION. Where operands come from: the operand kinds (spec/30_encoding.md R81), the signal classes (spec/40 R102)
and the value each bus driver puts on the bus (R105). -/

namespace Sys2Proof.Machine

/-- Operand kinds of the opcode descriptors (spec/30_encoding.md R81). -/
inductive OperandKind
  | none
  | memoryAddress
  | immediate
  | label
deriving DecidableEq, Repr

/-- DRIVERS (spec/40_pulse_engine.md R102). -/
def drivers : List Signal := [.co, .ro, .io, .ao, .eo, .ko, .spo]

/-- READERS (spec/40_pulse_engine.md R102). -/
def readers : List Signal := [.mi, .ri, .ii, .ai, .bi, .oi, .ju, .jcy, .jzr, .spu, .spl, .di, .dc]

/-- INTERNAL (spec/40_pulse_engine.md R102). -/
def internalSignals : List Signal := [.ce, .su, .fi, .sl, .sr, .halt, .orst]

/-- AWRITERS (spec/40_pulse_engine.md R102). -/
def aWriters : List Signal := [.ai, .sl, .sr]

/-- FLAGWRITERS (spec/40_pulse_engine.md R102). -/
def flagWriters : List Signal := [.fi, .sl, .sr]

/-- SPWRITERS (spec/40_pulse_engine.md R102). -/
def spWriters : List Signal := [.spu, .spo, .spl]

/-- MEMWRITERS (spec/40_pulse_engine.md R102). -/
def memWriters : List Signal := [.ri, .spu]

/-- |cw ∩ S|: how many signals of a class are in a control word. -/
def ControlWord.count (cw : ControlWord) (signals : List Signal) : Nat := (signals.filter cw.has).length

/-- The ALU in a pulse: A and B as they stand at its start, subtraction iff SU is in the control word
(spec/40_pulse_engine.md R107, R108). -/
def liveAlu {c : Config} (cw : ControlWord) (e : Engine c) : AluOut c.wordWidth := alu e.a e.b (cw.has .su)

/-- The word under the stack pointer after its decrement: what SPO drives (spec/40_pulse_engine.md R105). -/
def poppedWord {c : Config} (e : Engine c) : BitVec c.wordWidth := e.mem.read (stackAddr c (spDown c e.sp))

/-- The bus value: what the driver in the control word drives, from the state at the start of the pulse; `none` where
no driver is active, the undriven bus (spec/40_pulse_engine.md R104, R105). -/
def busValue {c : Config} (cw : ControlWord) (e : Engine c) : Option (BitVec c.wordWidth) :=
  if cw.has .co then some (onBus c e.pc)
  else if cw.has .ro then some (e.mem.read e.mar.toNat)
  else if cw.has .io then some (onBus c e.irB)
  else if cw.has .ao then some e.a
  else if cw.has .eo then some (liveAlu cw e).result
  else if cw.has .ko then some (e.key.setWidth c.wordWidth)
  else if cw.has .spo then some (poppedWord e)
  else none

end Sys2Proof.Machine
end

