-- ==== Sys2Proof/Machine/Microcode.lean ====
section
/-! DEFINITION. The opcode descriptor table as data (spec/30_encoding.md R87, R88) and the control word decoder
(spec/40_pulse_engine.md R110, R111, R122). -/

namespace Sys2Proof.Machine

/-- An opcode descriptor (spec/30_encoding.md R87): the execute words of microsteps 4 and later; `code` and the variant
columns stand in Decode.lean and WellFormed.lean. -/
structure Descriptor where
  mnemonic : String
  operandKind : OperandKind
  /-- N, the total cycle count, fetch included -/
  cycles : Nat
  /-- EXEC(op, 4), EXEC(op, 5), EXEC(op, 6) as far as they exist -/
  execWords : List ControlWord
  /-- the flag-affecting flag: carry and zero are written -/
  flagAffecting : Bool
deriving DecidableEq, Repr

/-- The descriptor table (spec/30_encoding.md R88), one row an opcode. -/
def descriptor : Opcode → Descriptor
  | .nop => ⟨"NOP", .none, 3, [], false⟩
  | .lda => ⟨"LDA", .memoryAddress, 5, [[.io, .mi], [.ro, .ai, .orst]], false⟩
  | .add => ⟨"ADD", .memoryAddress, 6, [[.io, .mi], [.ro, .bi], [.eo, .ai, .fi, .orst]], true⟩
  | .sub => ⟨"SUB", .memoryAddress, 6, [[.io, .mi], [.ro, .bi], [.eo, .ai, .su, .fi, .orst]], true⟩
  | .sta => ⟨"STA", .memoryAddress, 5, [[.io, .mi], [.ao, .ri, .orst]], false⟩
  | .ldi => ⟨"LDI", .immediate, 4, [[.io, .ai, .orst]], false⟩
  | .jmp => ⟨"JMP", .label, 4, [[.io, .ju, .orst]], false⟩
  | .jc => ⟨"JC", .label, 4, [[.io, .jcy, .orst]], false⟩
  | .jz => ⟨"JZ", .label, 4, [[.io, .jzr, .orst]], false⟩
  | .shl => ⟨"SHL", .none, 4, [[.sl, .orst]], true⟩
  | .shr => ⟨"SHR", .none, 4, [[.sr, .orst]], true⟩
  | .key => ⟨"KEY", .none, 4, [[.ko, .ai, .orst]], false⟩
  | .out => ⟨"OUT", .none, 4, [[.ao, .oi, .orst]], false⟩
  | .hlt => ⟨"HLT", .none, 4, [[.halt, .orst]], false⟩
  | .psh => ⟨"PSH", .none, 4, [[.ao, .spu, .orst]], false⟩
  | .pop => ⟨"POP", .none, 4, [[.spo, .ai, .orst]], false⟩
  | .cal => ⟨"CAL", .label, 5, [[.co, .spu], [.io, .ju, .orst]], false⟩
  | .ret => ⟨"RET", .none, 4, [[.spo, .ju, .orst]], false⟩
  | .lsp => ⟨"LSP", .none, 4, [[.ao, .spl, .orst]], false⟩
  | .dsd => ⟨"DSD", .none, 4, [[.ao, .di, .orst]], false⟩
  | .dsc => ⟨"DSC", .none, 4, [[.ao, .dc, .orst]], false⟩

/-- `EXEC(op, k)`: the execute word of a microstep, the empty set where the table has none: a lookup miss is a no-op,
never an error (spec/40_pulse_engine.md R122). -/
def execWord (op : Opcode) (k : Microstep) : ControlWord := ((descriptor op).execWords[k.number - 4]?).getD []

/-- The word of fetch microstep 3: CE, with ORST for an opcode of total cycle count 3 (spec/40_pulse_engine.md R110,
R111). -/
def thirdFetchWord (op : Option Opcode) : ControlWord :=
  match op with
  | some op => if (descriptor op).cycles = 3 then [.ce, .orst] else [.ce]
  | none => [.ce]

/-- `ControlWord(op, k)` (spec/40_pulse_engine.md R110); an opcode without a descriptor has no execute words (its
execute pulses fault before the control word is used, R123). -/
def controlWord (v : Variant) (irA : BitVec v.halfWidth) (k : Microstep) : ControlWord :=
  match k with
  | .t1 => [.co, .mi]
  | .t2 => [.ro, .ii]
  | .t3 => thirdFetchWord (opcodeOf v irA)
  | k => match opcodeOf v irA with
    | some op => execWord op k
    | none => []

end Sys2Proof.Machine
end

