-- ==== Sys2Proof/Machine/Pulse.lean ====
section
/-! DEFINITION. One pulse (spec/40_pulse_engine.md R120): the defensive checks, the range check of address loads, the
simultaneous writes; and sequences of pulses. -/

namespace Sys2Proof.Machine

/-- `nload`: how many PC-load conditions are active, on the flags latched at the start of the pulse
(spec/40_pulse_engine.md R114). -/
def nload {c : Config} (cw : ControlWord) (e : Engine c) : Nat :=
  (cw.has .ju).toNat + (cw.has .jcy && e.carry).toNat + (cw.has .jzr && e.zero).toNat

/-- Whether a defensive check fails (spec/40_pulse_engine.md R119). -/
def checkFails {c : Config} (cw : ControlWord) (e : Engine c) : Check → Bool
  | .k1 => decide (2 ≤ cw.count drivers)
  | .k2 => decide (2 ≤ nload cw e)
  | .k3 => decide (cw.count readers ≠ 0) && decide (cw.count drivers = 0)
  | .k4 => decide (nload cw e = 1) && cw.has .ce
  | .k5 => decide (2 ≤ cw.count aWriters)
  | .k6 => decide (2 ≤ cw.count flagWriters)
  | .k7 => decide (2 ≤ cw.count spWriters)
  | .k8 => decide (2 ≤ cw.count memWriters)
  | .k9 => !cw.has .orst && decide (e.microstep = .t7)

/-- The first failing check, K1 to K9 in order (spec/60_exceptions.md R226). -/
def firstFailedCheck {c : Config} (cw : ControlWord) (e : Engine c) : Option Check :=
  [Check.k1, .k2, .k3, .k4, .k5, .k6, .k7, .k8, .k9].find? (checkFails cw e)

/-- An address load that is out of range: MI, or an active PC load, with a bus value of at least M; the value is the
information the fault records (spec/40_pulse_engine.md R113, spec/60_exceptions.md R222). Both loads take the one bus
value, so the order of R226 cannot show. -/
def addressFault {c : Config} (cw : ControlWord) (e : Engine c) (bus : BitVec c.wordWidth) :
    Option (BitVec c.wordWidth) :=
  if cw.has .mi && decide (c.memSize ≤ bus.toNat) then some bus
  else if decide (nload cw e = 1) && decide (c.memSize ≤ bus.toNat) then some bus
  else none

/-- PC at the end of the pulse (spec/40_pulse_engine.md R112, R114). -/
def nextPc {c : Config} (cw : ControlWord) (e : Engine c) (bus : BitVec c.wordWidth) : BitVec c.halfWidth :=
  if nload cw e = 1 then fromBus c bus else if cw.has .ce then pcAfter c e.pc else e.pc

/-- A at the end of the pulse: AI, SL, SR (spec/40_pulse_engine.md R106, R115). -/
def nextA {c : Config} (cw : ControlWord) (e : Engine c) (bus : BitVec c.wordWidth) : BitVec c.wordWidth :=
  if cw.has .ai then bus
  else if cw.has .sl then (shiftLeft e.a).result
  else if cw.has .sr then (shiftRight e.a).result
  else e.a

/-- carry at the end of the pulse: FI, SL, SR, else held (spec/40_pulse_engine.md R115, R124). -/
def nextCarry {c : Config} (cw : ControlWord) (e : Engine c) : Bool :=
  if cw.has .fi then (liveAlu cw e).carry
  else if cw.has .sl then (shiftLeft e.a).carry
  else if cw.has .sr then (shiftRight e.a).carry
  else e.carry

/-- zero at the end of the pulse: FI, SL, SR, else held (spec/40_pulse_engine.md R115, R124). -/
def nextZero {c : Config} (cw : ControlWord) (e : Engine c) : Bool :=
  if cw.has .fi then (liveAlu cw e).zero
  else if cw.has .sl then (shiftLeft e.a).zero
  else if cw.has .sr then (shiftRight e.a).zero
  else e.zero

/-- SP at the end of the pulse: SPU, SPO, SPL (spec/40_pulse_engine.md R116). -/
def nextSp {c : Config} (cw : ControlWord) (e : Engine c) (bus : BitVec c.wordWidth) : Fin c.stackCap :=
  if cw.has .spu then spUp c e.sp
  else if cw.has .spo then spDown c e.sp
  else if cw.has .spl then spOf c bus
  else e.sp

/-- Memory at the end of the pulse: RI at MAR, SPU at the stack address, both as they stood at the start
(spec/20_memory.md R54, R55, spec/40_pulse_engine.md R106). -/
def nextMem {c : Config} (cw : ControlWord) (e : Engine c) (bus : BitVec c.wordWidth) : Memory c.wordWidth :=
  if cw.has .spu then e.mem.write (stackAddr c e.sp) bus
  else if cw.has .ri then e.mem.write e.mar.toNat bus
  else e.mem

/-- The events a pulse emits (spec/45_io.md R190, R198), in the order of spec/40_pulse_engine.md R120. -/
def emitted {c : Config} (cw : ControlWord) (bus : BitVec c.wordWidth) : List (Event c.wordWidth) :=
  (if cw.has .oi then [.output bus] else []) ++ (if cw.has .di then [.displayData bus] else [])
    ++ (if cw.has .dc then [.displayControl bus] else [])

/-- Step 5 of `Pulse` (spec/40_pulse_engine.md R120): every right-hand side reads the state at the start of the pulse,
and all writes land together (R121). -/
def writeBack {c : Config} (cw : ControlWord) (bus : BitVec c.wordWidth) (e : Engine c) : Engine c :=
  { pc := nextPc cw e bus
    mar := if cw.has .mi then fromBus c bus else e.mar
    irA := if cw.has .ii then opcodeField c.variant bus else e.irA
    irB := if cw.has .ii then operandField c.variant bus else e.irB
    a := nextA cw e bus
    b := if cw.has .bi then bus else e.b
    out := if cw.has .oi then bus else e.out
    carry := nextCarry cw e
    zero := nextZero cw e
    sp := nextSp cw e bus
    microstep := if cw.has .orst then .t1 else e.microstep.succ
    halted := cw.has .halt || e.halted
    fault := e.fault
    key := e.key
    dispData := if cw.has .di then bus else e.dispData
    dispCtrl := if cw.has .dc then bus else e.dispCtrl
    mem := nextMem cw e bus
    events := e.events ++ emitted cw bus }

/-- Steps 2 to 5 of `Pulse` (spec/40_pulse_engine.md R120) for ANY control word. A word with a reader has a driver by
check K3, so the 0 that stands for an undriven bus reaches no register (notes/assumptions/12.md). -/
def applyWord {c : Config} (cw : ControlWord) (e : Engine c) : Engine c :=
  match firstFailedCheck cw e with
  | some k => e.raise (.busOrJumpContentionInvariant cw.asSet k)
  | none =>
    let bus := (busValue cw e).getD 0#c.wordWidth
    match addressFault cw e bus with
    | some addr => e.raise (.addressOutOfRange addr)
    | none => writeBack cw bus e

/-- Whether the next pulse raises InvalidOpcode: an execute microstep with an IR_A that has no descriptor
(spec/40_pulse_engine.md R123). -/
def invalidAtExecute {c : Config} (e : Engine c) : Bool :=
  decide (4 ≤ e.microstep.number) && (opcodeOf c.variant e.irA).isNone

/-- `Pulse(s)` (spec/40_pulse_engine.md R120); a no-op on a halted state (R125). -/
def pulse {c : Config} (e : Engine c) : Engine c :=
  if e.halted then e
  else if invalidAtExecute e then e.raise (.invalidOpcode e.irA)
  else applyWord (controlWord c.variant e.irA e.microstep) e

/-- `n` pulses in order. -/
def pulses {c : Config} : Nat → Engine c → Engine c
  | 0, e => e
  | n + 1, e => pulses n (pulse e)

/-- The given control words in order, one a pulse, stopping where the engine halts: a fault at an earlier pulse stops
the instruction (spec/60_exceptions.md R226). -/
def runWords {c : Config} : List ControlWord → Engine c → Engine c
  | [], e => e
  | cw :: rest, e => if e.halted then e else runWords rest (applyWord cw e)

/-- Pulses until microstep is 1 or the engine is halted, at most `n`. -/
def settle {c : Config} : Nat → Engine c → Engine c
  | 0, e => e
  | n + 1, e => if e.halted || decide (e.microstep = .t1) then e else settle n (pulse e)

/-- Pulses up to the next instruction boundary: one, then as many as the instruction still needs (at most 6, since
MAX_STEPS is 7); nothing on a halted engine (spec/40_pulse_engine.md R130, R131). -/
def toBoundary {c : Config} (e : Engine c) : Engine c := if e.halted then e else settle 6 (pulse e)

/-- The state after fetch microsteps 1 and 2 of an instruction word: MAR <- PC, IR_A and IR_B <- its fields
(spec/40_pulse_engine.md R110, R111). -/
def latched {c : Config} (code : Nat) (operand : Operand) (e : Engine c) : Engine c :=
  { e with
    mar := e.pc
    irA := BitVec.ofNat c.halfWidth code
    irB := operand.setWidth c.halfWidth
    microstep := .t3 }

/-- One instruction from its boundary: fetch microsteps 1 and 2, then its control words from microstep 3 on. A halted
engine runs no pulse (spec/40_pulse_engine.md R125). -/
def State.runInstr (s : State) (code : Nat) (operand : Operand) (words : List ControlWord) :
    Host.Outcome State Fault Refusal :=
  if s.engine.halted then .next s
  else .next { s with engine := runWords words (latched code operand s.engine) }

/-- `runInstr` for an instruction that exists in EXT only (spec/30_encoding.md R88): on a BASE engine it has no word and
no meaning, and is refused by its own name (notes/assumptions/8.md). -/
def State.runExtInstr (s : State) (mnemonic : String) (code : Nat) (operand : Operand) (words : List ControlWord) :
    Host.Outcome State Fault Refusal :=
  match s.cfg.variant with
  | .ext => s.runInstr code operand words
  | .base => .refused (.notInVariant mnemonic)

end Sys2Proof.Machine
end

