-- ==== Sys2Proof/Machine/Arithmetic.lean ====
section
/-! DEFINITION. Arithmetic and shifts (spec/42_arithmetic.md R160 to R165). Each meaning is
the instruction's own microsteps from fetch microstep 3 on, as its rule lists them. -/

namespace Sys2Proof.Machine

/-- `ADD a`: MAR <- a; B <- mem[a]; A, carry, zero <- ALU(A, B, 0) (R160). -/
def execAdd (a : Operand) (s : State) : Host.Outcome State Fault Refusal :=
  s.runInstr 0x02 a [[.ce], [.io, .mi], [.ro, .bi], [.eo, .ai, .fi, .orst]]

/-- `SUB a`: MAR <- a; B <- mem[a]; A, carry, zero <- ALU(A, B, 1) (R161). -/
def execSub (a : Operand) (s : State) : Host.Outcome State Fault Refusal :=
  s.runInstr 0x03 a [[.ce], [.io, .mi], [.ro, .bi], [.eo, .ai, .su, .fi, .orst]]

/-- `SHL`: A, carry, zero <- A shifted left by one (R162). -/
def execShl (x : Operand) (s : State) : Host.Outcome State Fault Refusal :=
  s.runInstr 0x09 x [[.ce], [.sl, .orst]]

/-- `SHR`: A, carry, zero <- A shifted right by one, logical (R163). -/
def execShr (x : Operand) (s : State) : Host.Outcome State Fault Refusal :=
  s.runInstr 0x0A x [[.ce], [.sr, .orst]]

end Sys2Proof.Machine
end

