-- ==== Sys2Proof/Machine/ControlTransfer.lean ====
section
/-! DEFINITION. Control transfer (spec/43_control_transfer.md R170 to R176). Each meaning is
the instruction's own microsteps from fetch microstep 3 on, as its rule lists them. -/

namespace Sys2Proof.Machine

/-- `JMP t`: PC <- t (R170). -/
def execJmp (t : Operand) (s : State) : Host.Outcome State Fault Refusal :=
  s.runInstr 0x06 t [[.ce], [.io, .ju, .orst]]

/-- `JC t`: PC <- t if the latched carry is 1 (R171). -/
def execJc (t : Operand) (s : State) : Host.Outcome State Fault Refusal :=
  s.runInstr 0x07 t [[.ce], [.io, .jcy, .orst]]

/-- `JZ t`: PC <- t if the latched zero is 1 (R172). -/
def execJz (t : Operand) (s : State) : Host.Outcome State Fault Refusal :=
  s.runInstr 0x08 t [[.ce], [.io, .jzr, .orst]]

/-- `CAL t` (EXT only): push the incremented PC; PC <- t (R173). -/
def execCal (t : Operand) (s : State) : Host.Outcome State Fault Refusal :=
  s.runExtInstr "CAL" 0x12 t [[.ce], [.co, .spu], [.io, .ju, .orst]]

/-- `RET` (EXT only): PC <- the popped word, or the fault AddressOutOfRange where it is at least M (R174). -/
def execRet (x : Operand) (s : State) : Host.Outcome State Fault Refusal :=
  s.runExtInstr "RET" 0x13 x [[.ce], [.spo, .ju, .orst]]

end Sys2Proof.Machine
end

