-- ==== Sys2Proof/Machine/InputOutput.lean ====
section
/-! DEFINITION. Input and output (spec/45_io.md R190 to R200). Each meaning is
the instruction's own microsteps from fetch microstep 3 on, as its rule lists them. -/

namespace Sys2Proof.Machine

/-- `OUT`: OUT <- A, and one Output event (R191). -/
def execOut (x : Operand) (s : State) : Host.Outcome State Fault Refusal :=
  s.runInstr 0x0E x [[.ce], [.ao, .oi, .orst]]

/-- `KEY`: A <- zext_W(KEY) (R192). -/
def execKey (x : Operand) (s : State) : Host.Outcome State Fault Refusal :=
  s.runInstr 0x0B x [[.ce], [.ko, .ai, .orst]]

/-- `DSD` (EXT only): DISP_DATA <- A, and one Display(data) event (R199). -/
def execDsd (x : Operand) (s : State) : Host.Outcome State Fault Refusal :=
  s.runExtInstr "DSD" 0x15 x [[.ce], [.ao, .di, .orst]]

/-- `DSC` (EXT only): DISP_CTRL <- A, and one Display(control) event (R200). -/
def execDsc (x : Operand) (s : State) : Host.Outcome State Fault Refusal :=
  s.runExtInstr "DSC" 0x16 x [[.ce], [.ao, .dc, .orst]]

end Sys2Proof.Machine
end

