-- ==== Sys2Proof/Machine/LoadStore.lean ====
section
/-! DEFINITION. Loads and stores (spec/41_load_store.md R150 to R155): direct addressing only. Each meaning is
the instruction's own microsteps from fetch microstep 3 on, as its rule lists them. -/

namespace Sys2Proof.Machine

/-- `LDA a`: MAR <- a; A <- mem[a] (R150). -/
def execLda (a : Operand) (s : State) : Host.Outcome State Fault Refusal :=
  s.runInstr 0x01 a [[.ce], [.io, .mi], [.ro, .ai, .orst]]

/-- `STA a`: MAR <- a; mem[a] <- A (R151). -/
def execSta (a : Operand) (s : State) : Host.Outcome State Fault Refusal :=
  s.runInstr 0x04 a [[.ce], [.io, .mi], [.ao, .ri, .orst]]

/-- `LDI v`: A <- zext_W(v) (R152). -/
def execLdi (v : Operand) (s : State) : Host.Outcome State Fault Refusal :=
  s.runInstr 0x05 v [[.ce], [.io, .ai, .orst]]

end Sys2Proof.Machine
end

