-- ==== Sys2Proof/Machine/Stack.lean ====
section
/-! DEFINITION. The stack (spec/44_stack.md R180 to R183), in EXT only. Each meaning is
the instruction's own microsteps from fetch microstep 3 on, as its rule lists them. -/

namespace Sys2Proof.Machine

/-- `PSH`: mem[STACK_BASE + SP] <- A; SP up (R181). -/
def execPsh (x : Operand) (s : State) : Host.Outcome State Fault Refusal :=
  s.runExtInstr "PSH" 0x10 x [[.ce], [.ao, .spu, .orst]]

/-- `POP`: SP down; A <- mem[STACK_BASE + SP] (R182). -/
def execPop (x : Operand) (s : State) : Host.Outcome State Fault Refusal :=
  s.runExtInstr "POP" 0x11 x [[.ce], [.spo, .ai, .orst]]

/-- `LSP`: SP <- A mod STACK_CAP (R183). -/
def execLsp (x : Operand) (s : State) : Host.Outcome State Fault Refusal :=
  s.runExtInstr "LSP" 0x14 x [[.ce], [.ao, .spl, .orst]]

end Sys2Proof.Machine
end

