-- ==== Sys2Proof/Machine/System.lean ====
section
/-! DEFINITION. System instructions (spec/46_system.md R210 to R212). Each meaning is
the instruction's own microsteps from fetch microstep 3 on, as its rule lists them. -/

namespace Sys2Proof.Machine

/-- `NOP`: fetch only, with ORST in microstep 3 (R210). -/
def execNop (x : Operand) (s : State) : Host.Outcome State Fault Refusal :=
  s.runInstr 0x00 x [[.ce, .orst]]

/-- `HLT`: halted <- true, fault stays `none` (R211). -/
def execHlt (x : Operand) (s : State) : Host.Outcome State Fault Refusal :=
  s.runInstr 0x0F x [[.ce], [.halt, .orst]]

end Sys2Proof.Machine
end

