-- ==== Sys2Proof/Machine/Dispatch.lean ====
section
/-! DEFINITION. The meaning of each instruction: one arm per constructor of `Instr`, each one call of its meaning. -/

namespace Sys2Proof.Machine

def exec (i : Instr) (s : State) : Host.Outcome State Fault Refusal :=
  match i with
  | .nop x => Sys2Proof.Machine.execNop x s
  | .lda a => Sys2Proof.Machine.execLda a s
  | .add a => Sys2Proof.Machine.execAdd a s
  | .sub a => Sys2Proof.Machine.execSub a s
  | .sta a => Sys2Proof.Machine.execSta a s
  | .ldi v => Sys2Proof.Machine.execLdi v s
  | .jmp t => Sys2Proof.Machine.execJmp t s
  | .jc t => Sys2Proof.Machine.execJc t s
  | .jz t => Sys2Proof.Machine.execJz t s
  | .shl x => Sys2Proof.Machine.execShl x s
  | .shr x => Sys2Proof.Machine.execShr x s
  | .key x => Sys2Proof.Machine.execKey x s
  | .out x => Sys2Proof.Machine.execOut x s
  | .hlt x => Sys2Proof.Machine.execHlt x s
  | .psh x => Sys2Proof.Machine.execPsh x s
  | .pop x => Sys2Proof.Machine.execPop x s
  | .cal t => Sys2Proof.Machine.execCal t s
  | .ret x => Sys2Proof.Machine.execRet x s
  | .lsp x => Sys2Proof.Machine.execLsp x s
  | .dsd x => Sys2Proof.Machine.execDsd x s
  | .dsc x => Sys2Proof.Machine.execDsc x s

end Sys2Proof.Machine
end

