-- ==== Sys2Proof/Machine/Fetch.lean ====
section
/-! DEFINITION. Where the next instruction's word stands, and a word placed there. -/

namespace Sys2Proof.Machine

/-- The word the next fetch reads: `mem[PC]` (spec/40_pulse_engine.md R110, microsteps 1 and 2). -/
def State.fetchWord (s : State) : BitVec s.cfg.wordWidth := s.engine.mem.read s.engine.pc.toNat

/-- A word placed where the next step fetches it: at PC, with the engine running and at an instruction boundary. -/
def State.placeWord (s : State) (w : Nat) : State :=
  { s with
    engine := { s.engine with
      mem := s.engine.mem.write s.engine.pc.toNat (BitVec.ofNat s.cfg.wordWidth w)
      microstep := .t1
      halted := false
      fault := .none } }

end Sys2Proof.Machine
end

