-- ==== Sys2Proof/Machine/Step.lean ====
section
/-! DEFINITION. One step of the machine: one whole instruction, from the state between pulses to the next instruction
boundary (notes/assumptions/2.md); and where the next instruction's word stands. -/

namespace Sys2Proof.Machine

/-- One step. At an instruction boundary it runs the decoded instruction; where the word is no instruction, or the
engine stands inside one (the host stopped it there), it runs pulses to the boundary, the entry of InvalidOpcode
among them (spec/40_pulse_engine.md R123). A halted machine stays as it is (R125). -/
def step (s : State) : Host.Outcome State Fault Refusal :=
  if s.engine.halted then .next s
  else if s.engine.microstep = .t1 then
    match decode s.cfg.variant s.fetchWord with
    | .ok i => exec i s
    | .error _ => .next { s with engine := toBoundary s.engine }
  else .next { s with engine := toBoundary s.engine }

/-- The machine with an opcode-table word where `step` fetches its next instruction. A word of 8 bits is a BASE
instruction and one of 16 bits an EXT instruction; the variant of an engine never changes (spec/00_scope.md R7), so
for a word of the other variant this is a newly constructed engine of that variant (notes/assumptions/6.md). -/
def State.withFetchWord (s : State) (nbits w : Nat) : State :=
  if s.cfg.variant = tableVariant nbits then s.placeWord w
  else match tableVariant nbits with
    | .base => (State.initial Config.baseDefault).placeWord w
    | .ext => (State.initial Config.extDefault).placeWord w

end Sys2Proof.Machine
end

