-- ==== Sys2Proof/Machine/ClockDriver.lean ====
section
/-! DEFINITION. The clock driver (spec/40_pulse_engine.md R135 to R138): how many pulses run when the host asks. -/

namespace Sys2Proof.Machine

/-- What the host gets back from a call that may run pulses (spec/60_exceptions.md R240): refusal, or the machine after
it, the number of pulses executed, and the events they emitted, oldest first. -/
inductive HostReply
  | refused
  | ran (after : State) (executed : Nat) (events : List (Event after.cfg.wordWidth))
deriving DecidableEq, Repr

/-- `configure(target_hz)`: refused where the frequency is not positive; otherwise it also zeroes the accumulator
(spec/40_pulse_engine.md R135). -/
def State.configure (targetHz : Rat) (s : State) : Option State :=
  if 0 < targetHz then some { s with clock := { targetHz := targetHz, acc := 0 } } else none

/-- At most `n` pulses, stopping where the engine halts; the second part counts the pulses executed, a faulting one
among them (spec/40_pulse_engine.md R136). -/
def runPulses {c : Config} : Nat → Engine c → Engine c × Nat
  | 0, e => (e, 0)
  | n + 1, e =>
    if e.halted then (e, 0)
    else ((runPulses n (pulse e)).1, (runPulses n (pulse e)).2 + 1)

/-- The pulses due after `elapsed` seconds and the accumulator that remains: floor and fraction of
acc + elapsed · target_hz (spec/40_pulse_engine.md R136). -/
def Clock.due (elapsed : Rat) (k : Clock) : Nat × Clock :=
  let total := k.acc + elapsed * k.targetHz
  (total.floor.toNat, { k with acc := total - (total.floor : Rat) })

/-- The machine with an engine advanced by at most `n` pulses, and what the host gets back. -/
def State.ranPulses (n : Nat) (clock : Clock) (s : State) : HostReply :=
  let r := runPulses n s.engine
  .ran { cfg := s.cfg, engine := r.1, clock := clock } r.2 (r.1.events.drop s.engine.events.length)

/-- `advance(elapsed)` (spec/40_pulse_engine.md R136): a negative time is refused (notes/assumptions/11.md); a halted
engine runs nothing and keeps its accumulator; pulses left over after a halt are dropped. -/
def State.advance (elapsed : Rat) (s : State) : HostReply :=
  if elapsed < 0 then .refused
  else if s.engine.halted then .ran s 0 []
  else s.ranPulses (s.clock.due elapsed).1 (s.clock.due elapsed).2

/-- `tick()`: exactly one pulse, or none on a halted engine; the accumulator is not touched
(spec/40_pulse_engine.md R137). -/
def State.tick (s : State) : HostReply := s.ranPulses 1 s.clock

end Sys2Proof.Machine
end

