-- ==== Sys2Proof/Machine/HostInterface.lean ====
section
/-! DEFINITION. The host's side (spec/60_exceptions.md R240): construction from images, setting KEY, reset, the debug
snapshot, and sequences of host calls. -/

namespace Sys2Proof.Machine

/-- One memory image: a mapping from addresses to word values (spec/70_reset_and_hazards.md R258). -/
abbrev Image := List (Nat × Nat)

/-- Whether every address of an image is in [0, M) (spec/70_reset_and_hazards.md R258). -/
def Image.inRange (c : Config) (image : Image) : Bool := image.all fun entry => decide (entry.1 < c.memSize)

/-- Memory with an image applied over it; a value is stored modulo 2^W (spec/70_reset_and_hazards.md R258). -/
def Image.load (c : Config) (image : Image) (mem : Memory c.wordWidth) : Memory c.wordWidth :=
  image.foldl (fun m entry => m.write entry.1 (BitVec.ofNat c.wordWidth entry.2)) mem

/-- Construction from images applied in order, refused as a whole where an address is out of range
(spec/70_reset_and_hazards.md R258). -/
def State.construct (c : Config) (images : List Image) : Option State :=
  if images.all (Image.inRange c) then
    some
      { cfg := c
        engine := { Engine.initial c with mem := images.foldl (fun m image => image.load c m) [] }
        clock := (State.initial c).clock }
  else none

/-- Construction from raw parameters, refused where spec/00_scope.md R6 is violated too. -/
def State.constructRaw (v : Variant) (stackBase stackCap : Nat) (images : List Image) : Option State :=
  (Config.ofParameters v stackBase stackCap).bind fun c => State.construct c images

/-- The host sets KEY, and nothing else (spec/45_io.md R195). -/
def State.setKey (k : KeyCode) (s : State) : State := { s with engine := { s.engine with key := k } }

/-- The host resets the engine; the configuration and the clock driver are unchanged
(spec/70_reset_and_hazards.md R251, R254). -/
def State.applyReset (s : State) : State := { s with engine := s.engine.applyReset }

/-- A virtual key (spec/45_io.md R196). -/
inductive VirtualKey
  | digit (d : Fin 10)
  | add
  | subtract
  | multiply
  | divide
  | idle
deriving DecidableEq, Repr

/-- The code a conforming keypad host writes into KEY (spec/45_io.md R196). -/
def VirtualKey.keyCode : VirtualKey → KeyCode
  | .digit d => BitVec.ofNat 8 (0x80 + d.val)
  | .add => 0x8A
  | .subtract => 0x8B
  | .multiply => 0x8C
  | .divide => 0x8D
  | .idle => 0x00

/-- The state of the execution state machine (spec/40_pulse_engine.md R130). -/
inductive Phase
  | fetch
  | execute
  | halted
deriving DecidableEq, Repr

/-- FETCH at microsteps 1 to 3, EXECUTE from 4 on, HALTED where halted (spec/40_pulse_engine.md R130). -/
def Engine.phase {c : Config} (e : Engine c) : Phase :=
  if e.halted then .halted else if e.microstep.number ≤ 3 then .fetch else .execute

/-- How a run ended (spec/60_exceptions.md R245, spec/10_state.md R35). -/
inductive RunEnd (v : Variant)
  | running
  | normal
  | faulted (reason : FaultValue v)
deriving DecidableEq, Repr

/-- A run ends when `halted` becomes true: normally if `fault` is `none`, faulted otherwise. -/
def Engine.runEnd {c : Config} (e : Engine c) : RunEnd c.variant :=
  if e.halted then (if e.fault = .none then .normal else .faulted e.fault) else .running

/-- The control word the next pulse would apply, empty when halted or about to raise InvalidOpcode
(spec/60_exceptions.md R242). -/
def Engine.activeSignals {c : Config} (e : Engine c) : ControlWord :=
  if e.halted || invalidAtExecute e then [] else controlWord c.variant e.irA e.microstep

/-- The read-only debug snapshot (spec/60_exceptions.md R242): every field and the whole memory are in `engine`. -/
structure Snapshot (c : Config) where
  engine : Engine c
  activeSignals : ControlWord
  aluOutputs : AluOut c.wordWidth
deriving DecidableEq, Repr

/-- The snapshot between pulses; it changes nothing (spec/60_exceptions.md R241, R242). -/
def State.snapshot (s : State) : Snapshot s.cfg where
  engine := s.engine
  activeSignals := s.engine.activeSignals
  aluOutputs := liveAlu s.engine.activeSignals s.engine

/-- The host's calls on an engine that runs (spec/60_exceptions.md R240); a model gives the host no other move. -/
inductive HostCall
  | configure (targetHz : Rat)
  | advance (elapsed : Rat)
  | tick
  | setKey (k : KeyCode)
  | snapshot
  | reset
deriving DecidableEq, Repr

/-- The machine a reply leaves: a refused call changes nothing. -/
def HostReply.stateOr (s : State) : HostReply → State
  | .refused => s
  | .ran after _ _ => after

/-- The machine after a host call. -/
def State.afterCall (s : State) : HostCall → State
  | .configure hz => (s.configure hz).getD s
  | .advance t => (s.advance t).stateOr s
  | .tick => s.tick.stateOr s
  | .setKey k => s.setKey k
  | .snapshot => s
  | .reset => s.applyReset

/-- The machine after a sequence of host calls: a key may be set between any two pulses (spec/70 R265), so what a
program does under every host is what it does under every such sequence. -/
def State.afterCalls (s : State) (calls : List HostCall) : State := calls.foldl State.afterCall s

end Sys2Proof.Machine
end

