-- ==== Sys2Proof/Safety.lean ====
section
/-! DEFINITION. What the statements call a good state, and the shapes they share. -/

namespace Sys2Proof.Machine

/-- The last microstep an engine with this IR_A can stand at: N of the opcode, at least the three of fetch; 4 for an
opcode without a descriptor, where it faults (spec/10_state.md R22, R33, spec/40_pulse_engine.md R123). -/
def lastMicrostep (v : Variant) (irA : BitVec v.halfWidth) : Nat :=
  match opcodeOf v irA with
  | some op => (descriptor op).cycles
  | none => 4

/-- The invariant of spec/10_state.md R22, R28, R37 beside what the types carry (PC, MAR below M, SP below STACK_CAP,
every value below 2^ its width): memory in canonical form, a fault only in a halted engine, the microstep inside the
current opcode's cycle count, and in BASE the stack pointer and the display registers at their reset value. -/
def Engine.Inv {c : Config} (e : Engine c) : Prop :=
  Memory.wf c.memSize e.mem = true ∧ (e.fault ≠ .none → e.halted = true)
    ∧ (3 ≤ e.microstep.number → e.microstep.number ≤ lastMicrostep c.variant e.irA)
    ∧ (c.variant = .base → e.sp.val = 0 ∧ e.dispData = 0 ∧ e.dispCtrl = 0)

/-- The invariant of the clock driver: the accumulator is the fractional remainder (spec/40_pulse_engine.md R136). -/
def Clock.Inv (k : Clock) : Prop := 0 ≤ k.targetHz ∧ 0 ≤ k.acc ∧ k.acc < 1

/-- The invariant of the machine. -/
def State.Inv (s : State) : Prop := s.engine.Inv ∧ s.clock.Inv

/-- A running engine between two instructions. -/
def Engine.AtBoundary {c : Config} (e : Engine c) : Prop := e.halted = false ∧ e.microstep = .t1

/-- The change every instruction makes beside its own effect: `MAR <- p; IR <- mem[p]; PC <- (p + 1) mod M`, and the
microstep back at 1 (the net effects of spec/41_load_store.md to spec/46_system.md). PC is H bits, so + 1 is modulo M. -/
def afterFetch {c : Config} (i : Instr) (e : Engine c) : Engine c :=
  { e with
    pc := e.pc + 1
    mar := e.pc
    irA := BitVec.ofNat c.halfWidth i.opcode.code
    irB := i.operand.setWidth c.halfWidth
    microstep := .t1 }

/-- The operand field of an instruction on an engine: H bits. -/
def operandOn (c : Config) (x : Operand) : BitVec c.halfWidth := x.setWidth c.halfWidth

/-- An opcode's row of spec/30_encoding.md R88: its code, operand kind, total cycle count, execute words and flag-affecting
flag, and that its words are `{code, operand}` in every variant that has it, for every operand the field holds. -/
def TableRow (op : Opcode) (code : Nat) (kind : OperandKind) (n : Nat) (words : List ControlWord) (flags : Bool) : Prop :=
  (op.code = code ∧ (descriptor op).operandKind = kind ∧ (descriptor op).cycles = n
    ∧ (descriptor op).execWords = words ∧ (descriptor op).flagAffecting = flags)
  ∧ ∀ (v : Variant) (x : Operand), op.existsIn v = true → x.toNat < 2 ^ v.halfWidth →
      (encode v (op.instr x)).toNat = code * 2 ^ v.halfWidth + x.toNat
        ∧ decode v (encode v (op.instr x)) = .ok (op.instr x)

/-- The instruction completes with this engine as its result: `exec` answers it as the next state, nothing but the engine
changed; and where the instruction's word is the one fetched at an instruction boundary, `n` pulses of the pulse engine
reach the same result, none of the earlier ones ending the instruction. -/
def CompletesAs (i : Instr) (s : State) (n : Nat) (result : Engine s.cfg) : Prop :=
  exec i s = .next { s with engine := result }
  ∧ (s.engine.microstep = .t1 → WellFormed s.cfg.variant i = true → s.fetchWord = encode s.cfg.variant i →
      pulses n s.engine = result
        ∧ ∀ k, 0 < k → k < n → (pulses k s.engine).halted = false ∧ (pulses k s.engine).microstep ≠ .t1)

/-- What an address holds after images are applied in order: the last value any of them names for it, else 0
(spec/70_reset_and_hazards.md R258). -/
def imageWord (w : Nat) (images : List Image) (addr : Nat) : BitVec w :=
  BitVec.ofNat w (((images.flatten.reverse.find? fun entry => entry.1 == addr).map Prod.snd).getD 0)

end Sys2Proof.Machine
end

