-- ==== Sys2Proof/Certificates/Slice0/Obligations.lean ====
section
/-! DEFINITION. The statements for the provers. Each docstring names the rule of spec/ it formalises. -/

open Sys2Proof Sys2Proof.Machine

/-! ### Encoding -/

/-- R92: the spec's own encoding examples, both ways where the word is an instruction. -/
def Obligations.SpecEncodingExamples : Prop :=
  (encode .base (.lda 14) = 0x1E#8 ∧ encode .base (.add 15) = 0x2F#8 ∧ encode .base (.jc 0) = 0x70#8
    ∧ encode .base (.out 0) = 0xE0#8 ∧ encode .base (.hlt 0) = 0xF0#8 ∧ encode .base (.ldi 5) = 0x55#8)
  ∧ (encode .ext (.ldi 0xFF) = 0x05FF#16 ∧ encode .ext (.cal 0x10) = 0x1210#16 ∧ encode .ext (.ret 0) = 0x1300#16
    ∧ encode .ext (.psh 0) = 0x1000#16 ∧ encode .ext (.hlt 0) = 0x0F00#16)
  ∧ (decode .base 0xC7#8 = .error (.invalidOpcode 0xC) ∧ decode .ext 0x0C00#16 = .error (.invalidOpcode 0x0C)
    ∧ decode .ext 0x1000#16 = .ok (.psh 0) ∧ decode .base 0x10#8 = .ok (.lda 0)
    ∧ decode .base 0x1E#8 = .ok (.lda 14) ∧ decode .base 0x2F#8 = .ok (.add 15) ∧ decode .base 0x70#8 = .ok (.jc 0)
    ∧ decode .base 0xE0#8 = .ok (.out 0) ∧ decode .base 0xF0#8 = .ok (.hlt 0) ∧ decode .base 0x55#8 = .ok (.ldi 5)
    ∧ decode .ext 0x05FF#16 = .ok (.ldi 0xFF) ∧ decode .ext 0x1210#16 = .ok (.cal 0x10)
    ∧ decode .ext 0x1300#16 = .ok (.ret 0) ∧ decode .ext 0x0F00#16 = .ok (.hlt 0))

/-- R80, R88, R90: an encoded well-formed instruction decodes to itself, with every operand the field holds. -/
def Obligations.DecodeAfterEncodeIsIdentity : Prop :=
  ∀ (v : Variant) (i : Instr), WellFormed v i = true → decode v (encode v i) = .ok i

/-- R80, R88, R91: a word that decodes is the encoding of what it decodes to, which is well-formed: no bit is dropped. -/
def Obligations.EncodeAfterDecodeIsIdentity : Prop :=
  ∀ (v : Variant) (w : BitVec v.wordWidth) (i : Instr), decode v w = .ok i → WellFormed v i = true ∧ encode v i = w

/-- R90, R91: the words with no instruction are those whose opcode field is one of the listed invalid codes, whatever the
operand bits, and the decoder names the field. -/
def Obligations.InvalidOpcodesAreExactlyTheListed : Prop :=
  (∀ w : BitVec 8, decode .base w = .error (.invalidOpcode (w.toNat / 16))
      ↔ (w.toNat / 16 = 0xC ∨ w.toNat / 16 = 0xD))
  ∧ (∀ w : BitVec 16, decode .ext w = .error (.invalidOpcode (w.toNat / 256))
      ↔ (w.toNat / 256 = 0x0C ∨ w.toNat / 256 = 0x0D ∨ 0x17 ≤ w.toNat / 256))
  ∧ (∀ (v : Variant) (w : BitVec v.wordWidth) (op : Nat),
      decode v w = .error (.invalidOpcode op) → op = w.toNat / 2 ^ v.halfWidth)

/-- R83: for an opcode of operand kind `none` the operand field has no effect: two instructions that differ in it alone
give results that differ in IR_B alone, and none is refused on account of it. -/
def Obligations.OperandFieldOfKindNoneIsIgnored : Prop :=
  ∀ (op : Opcode) (x y : Operand) (s : State), (descriptor op).operandKind = .none →
    op.existsIn s.cfg.variant = true → s.engine.halted = false →
    ∃ e : Engine s.cfg, exec (op.instr x) s = .next { s with engine := { e with irB := operandOn s.cfg x } }
      ∧ exec (op.instr y) s = .next { s with engine := { e with irB := operandOn s.cfg y } }

/-! ### The step and the pulses -/

/-- A step runs the decoded instruction: `step` of a running machine between two instructions, whose word at PC decodes to
a well-formed `i`, is `exec i` of the same state; `step` adds nothing around it (the fetch is part of the meaning; a step is
one instruction by the model's choice, notes/assumptions/2.md). -/
def Obligations.StepRunsTheDecodedInstruction : Prop :=
  ∀ (s : State) (i : Instr), s.engine.AtBoundary → WellFormed s.cfg.variant i = true →
    decode s.cfg.variant s.fetchWord = .ok i → step s = exec i s

/-- R120, R130: from EVERY state, one step is the pulses of R120 up to the next instruction boundary, the configuration
and the clock driver unchanged (the step's grain is the model's choice, notes/assumptions/2.md). -/
def Obligations.StepIsThePulsesToTheNextBoundary : Prop :=
  ∀ s : State, step s = .next { s with engine := toBoundary s.engine }

/-- Every step answers a next state, halted or at an instruction boundary, and never a refusal or a fault outcome; the
configuration and the clock driver are unchanged (R7). That a step ends there is the model's choice
(notes/assumptions/2.md): the core has no instruction-level step (R243), and R117, R119 and R130 speak of its pulses. -/
def Obligations.StepEndsHaltedOrAtABoundary : Prop :=
  ∀ s : State, ∃ e : Engine s.cfg, step s = .next { s with engine := e } ∧ (e.halted = true ∨ e.microstep = .t1)

/-- R131: from microstep 1 to the next microstep 1 a valid opcode other than HLT takes exactly its N pulses, where no fault
occurs; HLT halts at its pulse 4 and no earlier, and no later pulse does anything. -/
def Obligations.InstructionTakesItsCycleCount : Prop :=
  ∀ (c : Config) (e : Engine c) (op : Opcode), e.AtBoundary →
    opcodeOf c.variant (opcodeField c.variant (e.mem.read e.pc.toNat)) = some op →
    (op ≠ .hlt → e.fault = .none → (pulses (descriptor op).cycles e).fault = .none →
      (pulses (descriptor op).cycles e).AtBoundary
        ∧ ∀ k, 0 < k → k < (descriptor op).cycles → (pulses k e).microstep ≠ .t1)
    ∧ (op = .hlt → (∀ k, k < 4 → (pulses k e).halted = false) ∧ (pulses 4 e).halted = true
        ∧ ∀ k, pulses (4 + k) e = pulses 4 e)

/-- R22 (with R28, R37): every pulse keeps the invariant; its canonical form of the memory is the model's choice
(notes/assumptions/7.md). -/
def Obligations.PulseKeepsInvariant : Prop :=
  ∀ (c : Config) (e : Engine c), e.Inv → (pulse e).Inv

/-- R22: every step keeps the invariant; the step's grain and the canonical form of the memory are the model's choice
(notes/assumptions/2.md and 7.md). -/
def Obligations.StepKeepsInvariant : Prop :=
  ∀ s t : State, s.Inv → step s = .next t → t.Inv

/-- R22, R250: the machine right after reset has the invariant, in every configuration; the clock driver's values there are
the model's choice (notes/assumptions/5.md). -/
def Obligations.ResetHasInvariant : Prop :=
  State.reset.Inv ∧ ∀ c : Config, (State.initial c).Inv

/-- R22, R240: every host call keeps the invariant, and so does every sequence of them; the canonical form of the memory in it
is the model's choice (notes/assumptions/7.md). -/
def Obligations.HostCallsKeepInvariant : Prop :=
  ∀ (s : State) (calls : List HostCall), s.Inv → (s.afterCalls calls).Inv ∧ (s.afterCalls calls).cfg = s.cfg

/-- R125, R137: on a halted engine a pulse is a no-op that changes nothing and emits nothing; so is a step, `exec` of any
instruction the variant has, a `tick`, and an `advance` by a time that is not refused. -/
def Obligations.HaltedEngineIsInert : Prop :=
  ∀ s : State, s.engine.halted = true →
    pulse s.engine = s.engine ∧ step s = .next s ∧ s.tick = .ran s 0 []
      ∧ (∀ i : Instr, i.opcode.existsIn s.cfg.variant = true → exec i s = .next s)
      ∧ ∀ elapsed : Rat, 0 ≤ elapsed → s.advance elapsed = .ran s 0 []

/-- R224: a pulse that raises a fault changes `halted` and `fault` and nothing else; for the pulse of the machine and for
any control word. -/
def Obligations.FaultingPulseWritesNothingElse : Prop :=
  ∀ (c : Config) (e : Engine c),
    ((pulse e).fault ≠ e.fault → ∃ f, f ≠ .none ∧ pulse e = { e with halted := true, fault := f })
    ∧ ∀ cw : ControlWord, (applyWord cw e).fault ≠ e.fault →
        ∃ f, f ≠ .none ∧ applyWord cw e = { e with halted := true, fault := f }

/-- R110, R111, R112: the fetch phase: two pulses load MAR and IR from memory at PC, the third increments PC modulo M and,
for NOP alone, ends the instruction. -/
def Obligations.FetchPhaseLoadsTheWordAndIncrementsPc : Prop :=
  ∀ (c : Config) (e : Engine c), e.AtBoundary →
    pulses 2 e = { e with
      mar := e.pc
      irA := opcodeField c.variant (e.mem.read e.pc.toNat)
      irB := operandField c.variant (e.mem.read e.pc.toNat)
      microstep := .t3 }
    ∧ pulses 3 e = { e with
      pc := BitVec.ofNat c.halfWidth ((e.pc.toNat + 1) % c.memSize)
      mar := e.pc
      irA := opcodeField c.variant (e.mem.read e.pc.toNat)
      irB := operandField c.variant (e.mem.read e.pc.toNat)
      microstep := if opcodeOf c.variant (opcodeField c.variant (e.mem.read e.pc.toNat)) = some .nop then .t1 else .t4 }

/-- R123, R223: at an execute microstep an opcode without a descriptor raises InvalidOpcode of IR_A and applies no signal;
a word with one of the invalid opcode fields runs its three fetch pulses first. That one step is those four pulses (the
last clause) is the model's choice of the step's grain (notes/assumptions/2.md). -/
def Obligations.InvalidOpcodeFaultsAtItsFourthPulse : Prop :=
  (∀ (c : Config) (e : Engine c), e.halted = false → 4 ≤ e.microstep.number → opcodeOf c.variant e.irA = none →
    pulse e = { e with halted := true, fault := .invalidOpcode e.irA })
  ∧ ∀ s : State, s.engine.AtBoundary →
      (match s.cfg.variant with
        | .base => s.fetchWord.toNat / 16 = 0xC ∨ s.fetchWord.toNat / 16 = 0xD
        | .ext => s.fetchWord.toNat / 256 = 0x0C ∨ s.fetchWord.toNat / 256 = 0x0D ∨ 0x17 ≤ s.fetchWord.toNat / 256) →
      pulses 4 s.engine = { s.engine with
          pc := s.engine.pc + 1
          mar := s.engine.pc
          irA := opcodeField s.cfg.variant s.fetchWord
          irB := operandField s.cfg.variant s.fetchWord
          microstep := .t4
          halted := true
          fault := .invalidOpcode (opcodeField s.cfg.variant s.fetchWord) }
        ∧ step s = .next { s with engine := pulses 4 s.engine }

/-- R119, R225: no control word of the table fails a check, in any state whose microstep lies in the opcode's cycle count
(an invariant of the machine), and so no pulse of such a state raises the contention fault. -/
def Obligations.TableWordsPassEveryCheck : Prop :=
  ∀ (c : Config) (e : Engine c),
    (3 ≤ e.microstep.number → e.microstep.number ≤ lastMicrostep c.variant e.irA) →
    firstFailedCheck (controlWord c.variant e.irA e.microstep) e = none
      ∧ ∀ (cw : ControlWord) (k : Check), e.fault ≠ .busOrJumpContentionInvariant cw k →
          (pulse e).fault ≠ .busOrJumpContentionInvariant cw k

/-- R104, R119 (K1), R225: any control word with two different bus drivers in it faults, recording K1; that the recorded
word is a list in the order of R101 is the model's choice (notes/assumptions/9.md). -/
def Obligations.TwoBusDriversAreContention : Prop :=
  ∀ (c : Config) (e : Engine c) (cw : ControlWord) (d d' : Signal), d ∈ drivers → d' ∈ drivers → d ≠ d' →
    d ∈ cw → d' ∈ cw →
    applyWord cw e = { e with halted := true, fault := .busOrJumpContentionInvariant cw.asSet .k1 }

/-- R226: the order of the faults: InvalidOpcode, whatever the checks say; then the first failing check, K1 to K9, before
any address is looked at; then the address, MI and the PC load alike (both take the one bus value); and a pulse that
faults is the last of its instruction; that the recorded word is a list in the order of R101 is the model's choice
(notes/assumptions/9.md). -/
def Obligations.FaultsFollowThePriorityOrder : Prop :=
  (∀ (c : Config) (e : Engine c), e.halted = false → 4 ≤ e.microstep.number → opcodeOf c.variant e.irA = none →
    pulse e = { e with halted := true, fault := .invalidOpcode e.irA })
  ∧ (∀ (c : Config) (e : Engine c) (cw : ControlWord) (before after : List Check) (k : Check),
    [Check.k1, .k2, .k3, .k4, .k5, .k6, .k7, .k8, .k9] = before ++ k :: after →
    (∀ j ∈ before, checkFails cw e j = false) → checkFails cw e k = true →
    applyWord cw e = { e with halted := true, fault := .busOrJumpContentionInvariant cw.asSet k })
  ∧ (∀ (c : Config) (e : Engine c) (cw : ControlWord) (bus : BitVec c.wordWidth), (∀ j, checkFails cw e j = false) →
    busValue cw e = some bus → (.mi ∈ cw ∨ nload cw e = 1) → c.memSize ≤ bus.toNat →
    applyWord cw e = { e with halted := true, fault := .addressOutOfRange bus })
  ∧ ∀ (c : Config) (e : Engine c) (n : Nat), (pulse e).fault ≠ e.fault → pulses n (pulse e) = pulse e

/-- R11, R103: a control word is a set: what a pulse does depends only on which signals are in it; that it is written as a
list is the model's choice (notes/assumptions/9.md). -/
def Obligations.ControlWordIsASet : Prop :=
  ∀ (c : Config) (e : Engine c) (cw cw' : ControlWord), (∀ x : Signal, x ∈ cw ↔ x ∈ cw') →
    applyWord cw e = applyWord cw' e

/-- R222: with the table, only RET in EXT can raise AddressOutOfRange, and then the popped word is at least 256. -/
def Obligations.AddressOutOfRangeOnlyFromRet : Prop :=
  ∀ (c : Config) (e : Engine c) (addr : BitVec c.wordWidth),
    e.fault ≠ .addressOutOfRange addr → (pulse e).fault = .addressOutOfRange addr →
    c.variant = .ext ∧ opcodeOf c.variant e.irA = some .ret ∧ e.microstep = .t4
      ∧ addr = e.mem.read (c.stackBase + (spDown c e.sp).val) ∧ 256 ≤ addr.toNat

/-! ### Signals, ALU, shifts, stack pointer -/

/-- R20 (column "written by"): for any control word, a field changes only where a signal that writes it is present; KEY is
never written by a pulse, and memory only by RI or SPU. -/
def Obligations.OnlyItsSignalsWriteAField : Prop :=
  ∀ (c : Config) (e : Engine c) (cw : ControlWord),
    ((∀ x ∈ [Signal.ce, .ju, .jcy, .jzr], x ∉ cw) → (applyWord cw e).pc = e.pc)
    ∧ (.mi ∉ cw → (applyWord cw e).mar = e.mar)
    ∧ (.ii ∉ cw → (applyWord cw e).irA = e.irA ∧ (applyWord cw e).irB = e.irB)
    ∧ ((∀ x ∈ aWriters, x ∉ cw) → (applyWord cw e).a = e.a)
    ∧ (.bi ∉ cw → (applyWord cw e).b = e.b)
    ∧ (.oi ∉ cw → (applyWord cw e).out = e.out)
    ∧ ((∀ x ∈ flagWriters, x ∉ cw) → (applyWord cw e).carry = e.carry ∧ (applyWord cw e).zero = e.zero)
    ∧ ((∀ x ∈ spWriters, x ∉ cw) → (applyWord cw e).sp = e.sp)
    ∧ (.di ∉ cw → (applyWord cw e).dispData = e.dispData)
    ∧ (.dc ∉ cw → (applyWord cw e).dispCtrl = e.dispCtrl)
    ∧ ((∀ x ∈ memWriters, x ∉ cw) → (applyWord cw e).mem = e.mem)
    ∧ (applyWord cw e).key = e.key

/-- R124: FI latches the ALU's carry and zero for this pulse's A, B and SU; without FI, SL and SR the flags are held. -/
def Obligations.FlagsAreLatchedByFi : Prop :=
  ∀ (c : Config) (e : Engine c) (cw : ControlWord),
    (.fi ∈ cw → e.fault = .none → (applyWord cw e).fault = .none →
      (applyWord cw e).carry = (alu e.a e.b (decide (Signal.su ∈ cw))).carry
        ∧ (applyWord cw e).zero = (alu e.a e.b (decide (Signal.su ∈ cw))).zero)
    ∧ (.fi ∉ cw → .sl ∉ cw → .sr ∉ cw → (applyWord cw e).carry = e.carry ∧ (applyWord cw e).zero = e.zero)

/-- R108: the ALU's result, carry and zero, in every width; in a pulse it works on A and B as they stand at its start. -/
def Obligations.AluComputes : Prop :=
  ∀ (w : Nat) (a b : BitVec w),
    ((alu a b false).result.toNat = (a.toNat + b.toNat) % 2 ^ w
      ∧ ((alu a b false).carry = true ↔ 2 ^ w - 1 < a.toNat + b.toNat))
    ∧ (((alu a b true).result.toNat : Int) = ((a.toNat : Int) - (b.toNat : Int)) % (2 ^ w : Nat)
      ∧ ((alu a b true).carry = true ↔ b.toNat ≤ a.toNat))
    ∧ (∀ sub : Bool, (alu a b sub).zero = true ↔ (alu a b sub).result.toNat = 0)
    ∧ ∀ (c : Config) (e : Engine c) (cw : ControlWord), liveAlu cw e = alu e.a e.b (decide (Signal.su ∈ cw))

/-- R115: the shift signals act on A and write both flags, without the ALU, and nothing else but the microstep. -/
def Obligations.ShiftSignalsShiftA : Prop :=
  ∀ (c : Config) (e : Engine c),
    applyWord [.sl, .orst] e = { e with
      a := BitVec.ofNat c.wordWidth (e.a.toNat * 2 % 2 ^ c.wordWidth)
      carry := decide (2 ^ (c.wordWidth - 1) ≤ e.a.toNat)
      zero := decide (e.a.toNat * 2 % 2 ^ c.wordWidth = 0)
      microstep := .t1 }
    ∧ applyWord [.sr, .orst] e = { e with
      a := BitVec.ofNat c.wordWidth (e.a.toNat / 2)
      carry := decide (e.a.toNat % 2 = 1)
      zero := decide (e.a.toNat / 2 = 0)
      microstep := .t1 }

/-- R28, R116: SP is a circular counter over [0, STACK_CAP): up from the last is 0, down from 0 is the last, down undoes up,
and a load takes the bus value modulo STACK_CAP. -/
def Obligations.StackPointerIsCircular : Prop :=
  ∀ (c : Config) (sp : Fin c.stackCap) (x : BitVec c.wordWidth),
    (spUp c sp).val = (if sp.val = c.stackCap - 1 then 0 else sp.val + 1)
    ∧ (spDown c sp).val = (if sp.val = 0 then c.stackCap - 1 else sp.val - 1)
    ∧ spDown c (spUp c sp) = sp ∧ spUp c (spDown c sp) = sp
    ∧ (spOf c x).val = x.toNat % c.stackCap

/-! ### The instructions -/

/-- R150 -/
def Obligations.LdaLoadsTheNamedWord : Prop :=
  TableRow .lda 0x01 .memoryAddress 5 [[.io, .mi], [.ro, .ai, .orst]] false
  ∧ ∀ (s : State) (a : Operand), s.engine.halted = false →
      CompletesAs (.lda a) s 5 { afterFetch (.lda a) s.engine with
        a := s.engine.mem.read (operandOn s.cfg a).toNat
        mar := operandOn s.cfg a }

/-- R151 -/
def Obligations.StaStoresAtTheNamedAddress : Prop :=
  TableRow .sta 0x04 .memoryAddress 5 [[.io, .mi], [.ao, .ri, .orst]] false
  ∧ ∀ (s : State) (a : Operand), s.engine.halted = false →
      CompletesAs (.sta a) s 5 { afterFetch (.sta a) s.engine with
        mem := s.engine.mem.write (operandOn s.cfg a).toNat s.engine.a
        mar := operandOn s.cfg a }

/-- R152 -/
def Obligations.LdiLoadsItsOperandZeroExtended : Prop :=
  TableRow .ldi 0x05 .immediate 4 [[.io, .ai, .orst]] false
  ∧ ∀ (s : State) (v : Operand), s.engine.halted = false →
      CompletesAs (.ldi v) s 4 { afterFetch (.ldi v) s.engine with
        a := BitVec.ofNat s.cfg.wordWidth (operandOn s.cfg v).toNat }

/-- R160 -/
def Obligations.AddAddsTheNamedWord : Prop :=
  TableRow .add 0x02 .memoryAddress 6 [[.io, .mi], [.ro, .bi], [.eo, .ai, .fi, .orst]] true
  ∧ ∀ (s : State) (a : Operand) (x : BitVec s.cfg.wordWidth), s.engine.halted = false →
      x = s.engine.mem.read (operandOn s.cfg a).toNat →
      CompletesAs (.add a) s 6 { afterFetch (.add a) s.engine with
        b := x
        a := BitVec.ofNat s.cfg.wordWidth ((s.engine.a.toNat + x.toNat) % 2 ^ s.cfg.wordWidth)
        carry := decide (2 ^ s.cfg.wordWidth - 1 < s.engine.a.toNat + x.toNat)
        zero := decide ((s.engine.a.toNat + x.toNat) % 2 ^ s.cfg.wordWidth = 0)
        mar := operandOn s.cfg a }

/-- R161 -/
def Obligations.SubSubtractsTheNamedWord : Prop :=
  TableRow .sub 0x03 .memoryAddress 6 [[.io, .mi], [.ro, .bi], [.eo, .ai, .su, .fi, .orst]] true
  ∧ ∀ (s : State) (a : Operand) (x : BitVec s.cfg.wordWidth), s.engine.halted = false →
      x = s.engine.mem.read (operandOn s.cfg a).toNat →
      CompletesAs (.sub a) s 6 { afterFetch (.sub a) s.engine with
        b := x
        a := BitVec.ofNat s.cfg.wordWidth
          (if x.toNat ≤ s.engine.a.toNat then s.engine.a.toNat - x.toNat
            else s.engine.a.toNat + 2 ^ s.cfg.wordWidth - x.toNat)
        carry := decide (x.toNat ≤ s.engine.a.toNat)
        zero := decide (s.engine.a = x)
        mar := operandOn s.cfg a }

/-- R162 -/
def Obligations.ShlShiftsALeft : Prop :=
  TableRow .shl 0x09 .none 4 [[.sl, .orst]] true
  ∧ ∀ (s : State) (x : Operand), s.engine.halted = false →
      CompletesAs (.shl x) s 4 { afterFetch (.shl x) s.engine with
        a := BitVec.ofNat s.cfg.wordWidth (s.engine.a.toNat * 2 % 2 ^ s.cfg.wordWidth)
        carry := decide (2 ^ (s.cfg.wordWidth - 1) ≤ s.engine.a.toNat)
        zero := decide (s.engine.a.toNat * 2 % 2 ^ s.cfg.wordWidth = 0) }

/-- R163 -/
def Obligations.ShrShiftsARight : Prop :=
  TableRow .shr 0x0A .none 4 [[.sr, .orst]] true
  ∧ ∀ (s : State) (x : Operand), s.engine.halted = false →
      CompletesAs (.shr x) s 4 { afterFetch (.shr x) s.engine with
        a := BitVec.ofNat s.cfg.wordWidth (s.engine.a.toNat / 2)
        carry := decide (s.engine.a.toNat % 2 = 1)
        zero := decide (s.engine.a.toNat / 2 = 0) }

/-- R170 -/
def Obligations.JmpSetsPc : Prop :=
  TableRow .jmp 0x06 .label 4 [[.io, .ju, .orst]] false
  ∧ ∀ (s : State) (t : Operand), s.engine.halted = false →
      CompletesAs (.jmp t) s 4 { afterFetch (.jmp t) s.engine with pc := operandOn s.cfg t }

/-- R171 -/
def Obligations.JcJumpsOnTheLatchedCarry : Prop :=
  TableRow .jc 0x07 .label 4 [[.io, .jcy, .orst]] false
  ∧ ∀ (s : State) (t : Operand), s.engine.halted = false →
      CompletesAs (.jc t) s 4 { afterFetch (.jc t) s.engine with
        pc := if s.engine.carry = true then operandOn s.cfg t else s.engine.pc + 1 }

/-- R172 -/
def Obligations.JzJumpsOnTheLatchedZero : Prop :=
  TableRow .jz 0x08 .label 4 [[.io, .jzr, .orst]] false
  ∧ ∀ (s : State) (t : Operand), s.engine.halted = false →
      CompletesAs (.jz t) s 4 { afterFetch (.jz t) s.engine with
        pc := if s.engine.zero = true then operandOn s.cfg t else s.engine.pc + 1 }

/-- R173 -/
def Obligations.CalPushesTheReturnAddressAndJumps : Prop :=
  TableRow .cal 0x12 .label 5 [[.co, .spu], [.io, .ju, .orst]] false
  ∧ ∀ (s : State) (t : Operand), s.engine.halted = false → s.cfg.variant = .ext →
      CompletesAs (.cal t) s 5 { afterFetch (.cal t) s.engine with
        mem := s.engine.mem.write (s.cfg.stackBase + s.engine.sp.val)
          (BitVec.ofNat s.cfg.wordWidth ((s.engine.pc.toNat + 1) % s.cfg.memSize))
        sp := spUp s.cfg s.engine.sp
        pc := operandOn s.cfg t }

/-- R174: RET to a popped word below M, and its fault on any other; the faulting pulse leaves SP, and PC incremented. -/
def Obligations.RetPopsPcOrFaults : Prop :=
  TableRow .ret 0x13 .none 4 [[.spo, .ju, .orst]] false
  ∧ ∀ (s : State) (x : Operand) (v : BitVec s.cfg.wordWidth), s.engine.halted = false → s.cfg.variant = .ext →
      v = s.engine.mem.read (s.cfg.stackBase + (spDown s.cfg s.engine.sp).val) →
      (v.toNat < s.cfg.memSize →
        CompletesAs (.ret x) s 4 { afterFetch (.ret x) s.engine with
          pc := BitVec.ofNat s.cfg.halfWidth v.toNat
          sp := spDown s.cfg s.engine.sp })
      ∧ (s.cfg.memSize ≤ v.toNat →
        CompletesAs (.ret x) s 4 { afterFetch (.ret x) s.engine with
          microstep := .t4
          halted := true
          fault := .addressOutOfRange v })

/-- R181 -/
def Obligations.PshPushesA : Prop :=
  TableRow .psh 0x10 .none 4 [[.ao, .spu, .orst]] false
  ∧ ∀ (s : State) (x : Operand), s.engine.halted = false → s.cfg.variant = .ext →
      CompletesAs (.psh x) s 4 { afterFetch (.psh x) s.engine with
        mem := s.engine.mem.write (s.cfg.stackBase + s.engine.sp.val) s.engine.a
        sp := spUp s.cfg s.engine.sp }

/-- R182 -/
def Obligations.PopPopsIntoA : Prop :=
  TableRow .pop 0x11 .none 4 [[.spo, .ai, .orst]] false
  ∧ ∀ (s : State) (x : Operand), s.engine.halted = false → s.cfg.variant = .ext →
      CompletesAs (.pop x) s 4 { afterFetch (.pop x) s.engine with
        a := s.engine.mem.read (s.cfg.stackBase + (spDown s.cfg s.engine.sp).val)
        sp := spDown s.cfg s.engine.sp }

/-- R183 -/
def Obligations.LspLoadsSpModuloCapacity : Prop :=
  TableRow .lsp 0x14 .none 4 [[.ao, .spl, .orst]] false
  ∧ ∀ (s : State) (x : Operand) (sp : Fin s.cfg.stackCap), s.engine.halted = false → s.cfg.variant = .ext →
      sp.val = s.engine.a.toNat % s.cfg.stackCap →
      CompletesAs (.lsp x) s 4 { afterFetch (.lsp x) s.engine with sp := sp }

/-- R190, R191: OUT takes A and emits exactly one output event, also where OUT held that value already; that the event is
appended to a list in the state is the model's choice (notes/assumptions/4.md). -/
def Obligations.OutOutputsA : Prop :=
  TableRow .out 0x0E .none 4 [[.ao, .oi, .orst]] false
  ∧ ∀ (s : State) (x : Operand), s.engine.halted = false →
      CompletesAs (.out x) s 4 { afterFetch (.out x) s.engine with
        out := s.engine.a
        events := s.engine.events ++ [.output s.engine.a] }

/-- R192: A takes KEY zero-extended, for every value the host may have set; KEY is unchanged. -/
def Obligations.KeyLoadsThePendingKeyCode : Prop :=
  TableRow .key 0x0B .none 4 [[.ko, .ai, .orst]] false
  ∧ ∀ (s : State) (x : Operand), s.engine.halted = false →
      CompletesAs (.key x) s 4 { afterFetch (.key x) s.engine with
        a := BitVec.ofNat s.cfg.wordWidth s.engine.key.toNat }

/-- R199; that the Display(data, A) event it emits is appended to a list in the state is the model's choice
(notes/assumptions/4.md). -/
def Obligations.DsdWritesDisplayData : Prop :=
  TableRow .dsd 0x15 .none 4 [[.ao, .di, .orst]] false
  ∧ ∀ (s : State) (x : Operand), s.engine.halted = false → s.cfg.variant = .ext →
      CompletesAs (.dsd x) s 4 { afterFetch (.dsd x) s.engine with
        dispData := s.engine.a
        events := s.engine.events ++ [.displayData s.engine.a] }

/-- R200; that the Display(control, A) event it emits is appended to a list in the state is the model's choice
(notes/assumptions/4.md). -/
def Obligations.DscWritesDisplayControl : Prop :=
  TableRow .dsc 0x16 .none 4 [[.ao, .dc, .orst]] false
  ∧ ∀ (s : State) (x : Operand), s.engine.halted = false → s.cfg.variant = .ext →
      CompletesAs (.dsc x) s 4 { afterFetch (.dsc x) s.engine with
        dispCtrl := s.engine.a
        events := s.engine.events ++ [.displayControl s.engine.a] }

/-- R210: NOP changes MAR, IR and PC alone, in three pulses. -/
def Obligations.NopOnlyFetches : Prop :=
  TableRow .nop 0x00 .none 3 [] false
  ∧ ∀ (s : State) (x : Operand), s.engine.halted = false →
      CompletesAs (.nop x) s 3 (afterFetch (.nop x) s.engine)

/-- R211: HLT halts with `fault` as it was (`none` in every engine that runs), microstep 1 and PC incremented; every later
pulse is a no-op, and `tick` and `advance` report 0 pulses. -/
def Obligations.HltHalts : Prop :=
  TableRow .hlt 0x0F .none 4 [[.halt, .orst]] false
  ∧ ∀ (s : State) (x : Operand), s.engine.halted = false →
      CompletesAs (.hlt x) s 4 { afterFetch (.hlt x) s.engine with halted := true }
        ∧ ∀ t : State, t = { s with engine := { afterFetch (.hlt x) s.engine with halted := true } } →
            (∀ n, pulses n t.engine = t.engine) ∧ t.tick = .ran t 0 []
              ∧ ∀ elapsed : Rat, 0 ≤ elapsed → t.advance elapsed = .ran t 0 []

/-- R88 (column BASE): the seven EXT-only instructions do not exist in BASE: no BASE word decodes to one, and `exec` of one
on a BASE engine is refused by its name (the refusal is the model's form, notes/assumptions/8.md). -/
def Obligations.ExtOnlyInstructionsDoNotExistInBase : Prop :=
  (∀ (w : BitVec 8) (i : Instr), decode .base w = .ok i → i.opcode.existsIn .base = true)
  ∧ ∀ (s : State) (i : Instr), s.cfg.variant = .base → i.opcode.existsIn .base = false →
      exec i s = .refused (.notInVariant (descriptor i.opcode).mnemonic)

/-! ### Frames and sequences -/

/-- Every word of memory is unchanged by every instruction but the one a store names: STA stores at its operand, PSH and
CAL at STACK_BASE + SP; the other eighteen store nothing (R54). The memory is in canonical form, as in every reached
state; the canonical form of the memory is the model's choice (notes/assumptions/7.md). -/
def Obligations.StoresChangeOnlyTheirWord : Prop :=
  ∀ (s : State) (i : Instr), Memory.wf s.cfg.memSize s.engine.mem = true → s.engine.halted = false →
    i.opcode.existsIn s.cfg.variant = true →
    ∃ e : Engine s.cfg, exec i s = .next { s with engine := e } ∧
      match i with
      | .sta a => (∀ addr, addr ≠ (operandOn s.cfg a).toNat → e.mem.read addr = s.engine.mem.read addr)
          ∧ e.mem.read (operandOn s.cfg a).toNat = s.engine.a
      | .psh _ => (∀ addr, addr ≠ stackAddr s.cfg s.engine.sp → e.mem.read addr = s.engine.mem.read addr)
          ∧ e.mem.read (stackAddr s.cfg s.engine.sp) = s.engine.a
      | .cal _ => (∀ addr, addr ≠ stackAddr s.cfg s.engine.sp → e.mem.read addr = s.engine.mem.read addr)
          ∧ (e.mem.read (stackAddr s.cfg s.engine.sp)).toNat = (s.engine.pc.toNat + 1) % s.cfg.memSize
      | _ => ∀ addr, e.mem.read addr = s.engine.mem.read addr

/-- R262: the flags are the latched ones of the last ADD, SUB, SHL or SHR: every other instruction leaves both unchanged,
and after reset both are 0. -/
def Obligations.OnlyArithmeticAndShiftsWriteFlags : Prop :=
  (∀ (s : State) (i : Instr), i.opcode.existsIn s.cfg.variant = true → (descriptor i.opcode).flagAffecting = false →
    ∃ e : Engine s.cfg, exec i s = .next { s with engine := e }
      ∧ e.carry = s.engine.carry ∧ e.zero = s.engine.zero)
  ∧ (∀ op : Opcode, (descriptor op).flagAffecting = true ↔ op = .add ∨ op = .sub ∨ op = .shl ∨ op = .shr)
  ∧ ∀ s : State, s.applyReset.engine.carry = false ∧ s.applyReset.engine.zero = false

/-- R176, first sentence: a CAL whose target holds a RET (after the push) comes back in two steps to the following
instruction with the stack pointer it had (a step is one instruction by the model's choice, notes/assumptions/2.md); the
canonical form of the memory is the model's choice (notes/assumptions/7.md). -/
def Obligations.CallThenReturnComesBack : Prop :=
  ∀ (s : State) (t x : Operand), s.cfg.variant = .ext → s.engine.AtBoundary →
    Memory.wf s.cfg.memSize s.engine.mem = true →
    decode s.cfg.variant s.fetchWord = .ok (.cal t) →
    decode s.cfg.variant ((s.engine.mem.write (stackAddr s.cfg s.engine.sp) (onBus s.cfg (s.engine.pc + 1))).read
      (operandOn s.cfg t).toNat) = .ok (.ret x) →
    ∃ e₁ e₂ : Engine s.cfg, step s = .next { s with engine := e₁ } ∧
      step { s with engine := e₁ } = .next { s with engine := e₂ } ∧
      e₂.sp = s.engine.sp ∧ e₂.pc = s.engine.pc + 1 ∧ e₂.AtBoundary

/-- R64, R261: fetch is coherent with stores: a STA to the following address makes the stored word the instruction that
the next step runs (a step is one instruction by the model's choice, notes/assumptions/2.md); the canonical form of the
memory is the model's choice (notes/assumptions/7.md). -/
def Obligations.StoredWordIsTheNextInstruction : Prop :=
  ∀ (s : State) (a : Operand) (i : Instr), s.engine.AtBoundary →
    Memory.wf s.cfg.memSize s.engine.mem = true →
    decode s.cfg.variant s.fetchWord = .ok (.sta a) → operandOn s.cfg a = s.engine.pc + 1 →
    decode s.cfg.variant s.engine.a = .ok i →
    ∃ e : Engine s.cfg, step s = .next { s with engine := e } ∧
      step { s with engine := e } = exec i { s with engine := e }

/-! ### Reset and the host -/

/-- R250, R251, R252, R254: reset sets the listed fields to their values and changes nothing else: not memory, not KEY,
not the configuration, not the clock driver; it emits no event; the list in the state that holds the events is the model's
choice (notes/assumptions/4.md). -/
def Obligations.ResetSetsTheListedFields : Prop :=
  ∀ s : State,
    s.applyReset.cfg = s.cfg ∧ s.applyReset.clock = s.clock
    ∧ s.applyReset.engine = { Engine.initial s.cfg with
        key := s.engine.key, mem := s.engine.mem, events := s.engine.events }
    ∧ ∀ c : Config, (Engine.initial c).pc = 0 ∧ (Engine.initial c).mar = 0 ∧ (Engine.initial c).irA = 0
        ∧ (Engine.initial c).irB = 0 ∧ (Engine.initial c).a = 0 ∧ (Engine.initial c).b = 0
        ∧ (Engine.initial c).out = 0 ∧ (Engine.initial c).carry = false ∧ (Engine.initial c).zero = false
        ∧ (Engine.initial c).sp.val = 0 ∧ (Engine.initial c).microstep = .t1 ∧ (Engine.initial c).halted = false
        ∧ (Engine.initial c).fault = .none ∧ (Engine.initial c).dispData = 0 ∧ (Engine.initial c).dispCtrl = 0

/-- R258: images with an address out of range build no engine; otherwise memory holds the last value named for each
address, masked to W bits, and 0 where none is named; the registers are at their reset values and KEY is 0; the canonical
form of the memory is the model's choice (notes/assumptions/7.md). -/
def Obligations.ConstructionLoadsImages : Prop :=
  ∀ (c : Config) (images : List Image),
    ((∃ image ∈ images, ∃ entry ∈ image, c.memSize ≤ entry.1) → State.construct c images = none)
    ∧ ((∀ image ∈ images, ∀ entry ∈ image, entry.1 < c.memSize) →
        ∃ (mem : Memory c.wordWidth) (clock : Clock),
          State.construct c images = some { cfg := c, engine := { Engine.initial c with mem := mem }, clock := clock }
          ∧ Memory.wf c.memSize mem = true ∧ ∀ addr, mem.read addr = imageWord c.wordWidth images addr)
    ∧ (Engine.initial c).key = 0 ∧ (Engine.initial c).applyReset = Engine.initial c

/-- R136 ("retain the fractional remainder in an accumulator so long-run average frequency is correct"): advancing by two
times in turn runs the engine exactly as advancing once by their sum; the canonical form of the memory, in the premise, is
the model's choice (notes/assumptions/7.md). -/
def Obligations.AdvanceInTwoPartsIsOneAdvance : Prop :=
  ∀ (s : State) (t u : Rat), s.Inv → 0 ≤ t → 0 ≤ u →
    ∃ (e : Engine s.cfg) (k k' : Clock),
      s.afterCalls [.advance t, .advance u] = { s with engine := e, clock := k }
      ∧ s.afterCalls [.advance (t + u)] = { s with engine := e, clock := k' }
      ∧ ((s.afterCalls [.advance t]).engine.halted = false → k = k')

/-- R136: `advance` refuses a negative time and does nothing on a halted engine (a negative time there is left to
notes/assumptions/11.md); otherwise it runs the whole pulses due, in order, stops counting where the engine halts, drops
the pulses left over, and keeps the fraction; the list in the state that holds the events is the model's choice
(notes/assumptions/4.md). -/
def Obligations.AdvanceRunsThePulsesDue : Prop :=
  ∀ (s : State) (t due : Rat) (n : Nat), due = s.clock.acc + t * s.clock.targetHz → n = due.floor.toNat →
    (t < 0 → s.engine.halted = false → s.advance t = .refused)
    ∧ (0 ≤ t → s.engine.halted = true → s.advance t = .ran s 0 [])
    ∧ (0 ≤ t → s.engine.halted = false →
        ∃ k : Nat, s.advance t = .ran
            { s with engine := pulses n s.engine, clock := { s.clock with acc := due - (due.floor : Rat) } } k
            ((pulses n s.engine).events.drop s.engine.events.length)
          ∧ k ≤ n ∧ (∀ j, j < k → (pulses j s.engine).halted = false) ∧ (k < n → (pulses k s.engine).halted = true))

/-- R135, R137: `configure` refuses a frequency that is not positive and otherwise sets it and zeroes the accumulator;
`tick` runs exactly one pulse of a running engine and none of a halted one, where `advance` too reports 0, and leaves the
accumulator; the list in the state that holds the events is the model's choice (notes/assumptions/4.md). -/
def Obligations.ConfigureAndTick : Prop :=
  (∀ (s : State) (hz : Rat), (hz ≤ 0 → s.configure hz = none)
    ∧ (0 < hz → s.configure hz = some { s with clock := { targetHz := hz, acc := 0 } }))
  ∧ (∀ s : State, s.engine.halted = false →
      s.tick = .ran { s with engine := pulse s.engine } 1
        ((pulse s.engine).events.drop s.engine.events.length))
  ∧ ∀ s : State, s.engine.halted = true →
      s.tick = .ran s 0 [] ∧ ∀ elapsed : Rat, 0 ≤ elapsed → s.advance elapsed = .ran s 0 []

/-- R36, R195: the core never writes KEY and reads it only through KO: setting KEY before a pulse without KO or after it is
the same. -/
def Obligations.KeyIsReadOnlyThroughKo : Prop :=
  ∀ (c : Config) (e : Engine c) (k : KeyCode) (cw : ControlWord),
    (applyWord cw e).key = e.key ∧ (pulse e).key = e.key
    ∧ (.ko ∉ cw → applyWord cw { e with key := k } = { applyWord cw e with key := k })
    ∧ ((opcodeOf c.variant e.irA ≠ some .key ∨ e.microstep ≠ .t4) →
        pulse { e with key := k } = { pulse e with key := k })

/-- R242: the snapshot's active signal set is the control word the next pulse applies; it is empty on a halted engine and
before an InvalidOpcode; the snapshot holds the engine as it is. -/
def Obligations.SnapshotShowsTheNextControlWord : Prop :=
  ∀ s : State, s.snapshot.engine = s.engine
    ∧ (s.engine.halted = true → s.snapshot.activeSignals = [])
    ∧ (s.engine.halted = false →
        (4 ≤ s.engine.microstep.number ∧ opcodeOf s.cfg.variant s.engine.irA = none ∧ s.snapshot.activeSignals = [])
        ∨ (s.snapshot.activeSignals = controlWord s.cfg.variant s.engine.irA s.engine.microstep
            ∧ pulse s.engine = applyWord s.snapshot.activeSignals s.engine))
end

