-- ==== Sys2Proof/Laws/Memory.lean ====
section
/-! SUPPORT. What a memory read and a memory write can do, once for all: a read after a write, and that a write keeps the
canonical form. -/

namespace Sys2Proof.Machine

variable {w : Nat}

@[simp] theorem read_nil (a : Nat) : Memory.read ([] : Memory w) a = 0#w := rfl

@[simp] theorem wfFrom_nil (size lo : Nat) : Memory.wfFrom size lo ([] : Memory w) = true := rfl

theorem wfFrom_cons (size lo k : Nat) (x : BitVec w) (m : Memory w) :
    Memory.wfFrom size lo ((k, x) :: m) = true ↔
      lo ≤ k ∧ k < size ∧ x ≠ 0#w ∧ Memory.wfFrom size (k + 1) m = true := by
  simp [Memory.wfFrom, and_assoc]

theorem wfFrom_mono {size lo lo' : Nat} {m : Memory w} (h : Memory.wfFrom size lo m = true) (hl : lo' ≤ lo) :
    Memory.wfFrom size lo' m = true := by
  cases m with
  | nil => rfl
  | cons p m =>
    obtain ⟨k, x⟩ := p
    rw [wfFrom_cons] at h ⊢
    exact ⟨by omega, h.2⟩

/-- Below the first listed address everything reads as 0. -/
theorem read_below {size lo : Nat} {m : Memory w} (h : Memory.wfFrom size lo m = true) {a : Nat} (ha : a < lo) :
    m.read a = 0#w := by
  cases m with
  | nil => rfl
  | cons p m =>
    obtain ⟨k, x⟩ := p
    have hk := ((wfFrom_cons ..).mp h).1
    simp only [Memory.read, if_pos (show a < k by omega)]

/-- What an address reads after a write, in a memory in canonical form. -/
theorem read_write_from {size : Nat} {m : Memory w} (a b : Nat) (v : BitVec w) :
    ∀ lo, Memory.wfFrom size lo m = true → (m.write a v).read b = if b = a then v else m.read b := by
  induction m with
  | nil =>
    intro lo _
    by_cases hv : v = 0#w <;> by_cases hb : b = a <;> simp [Memory.write, Memory.read, hv, hb]
  | cons p m ih =>
    obtain ⟨k, x⟩ := p
    intro lo h
    obtain ⟨_, _, _, hm⟩ := (wfFrom_cons ..).mp h
    rcases Nat.lt_trichotomy a k with hak | hak | hak
    · by_cases hv : v = 0#w
      · by_cases hb : b = a
        · subst hb; simp [Memory.write, Memory.read, hak, hv]
        · simp [Memory.write, hak, hv, hb]
      · by_cases hb : b = a
        · subst hb; simp [Memory.write, Memory.read, hak, hv]
        · by_cases hlt : b < a
          · simp [Memory.write, Memory.read, hak, hv, hb, hlt, Nat.lt_trans hlt hak]
          · simp [Memory.write, Memory.read, hak, hv, hb, hlt]
    · subst hak
      by_cases hv : v = 0#w
      · by_cases hb : b = a
        · subst hb
          simp [Memory.write, hv, read_below hm (Nat.lt_succ_self b)]
        · by_cases hlt : b < a
          · simp [Memory.write, Memory.read, hv, hb, hlt, read_below hm (Nat.lt_succ_of_lt hlt)]
          · simp [Memory.write, Memory.read, hv, hb, hlt]
      · by_cases hb : b = a
        · subst hb; simp [Memory.write, Memory.read, hv]
        · simp [Memory.write, Memory.read, hv, hb]
    · have h1 : ¬ a < k := by omega
      have h2 : a ≠ k := by omega
      have key := ih _ hm
      by_cases hb : b = a
      · subst hb; simp [Memory.write, Memory.read, h1, h2, key]
      · simp [Memory.write, Memory.read, h1, h2, key, hb]

/-- A read after a write to the same address gives the value written. -/
theorem read_write_same {size : Nat} {m : Memory w} (h : Memory.wf size m = true) (a : Nat) (v : BitVec w) :
    (m.write a v).read a = v := by
  rw [read_write_from a a v 0 h, if_pos rfl]

/-- A write leaves every other address alone. -/
theorem read_write_other {size : Nat} {m : Memory w} (h : Memory.wf size m = true) {a b : Nat} (hab : b ≠ a)
    (v : BitVec w) : (m.write a v).read b = m.read b := by
  rw [read_write_from a b v 0 h, if_neg hab]

theorem wfFrom_write {size : Nat} {m : Memory w} (a : Nat) (v : BitVec w) (ha : a < size) :
    ∀ lo, lo ≤ a → Memory.wfFrom size lo m = true → Memory.wfFrom size lo (m.write a v) = true := by
  induction m with
  | nil =>
    intro lo hlo _
    by_cases hv : v = 0#w <;> simp [Memory.write, Memory.wfFrom, hv, hlo, ha]
  | cons p m ih =>
    obtain ⟨k, x⟩ := p
    intro lo hlo h
    have h' := (wfFrom_cons ..).mp h
    rcases Nat.lt_trichotomy a k with hak | hak | hak
    · by_cases hv : v = 0#w
      · simpa [Memory.write, hak, hv] using h
      · simp only [Memory.write, if_pos hak, if_neg hv]
        rw [wfFrom_cons, wfFrom_cons]
        exact ⟨hlo, ha, hv, by omega, h'.2⟩
    · subst hak
      by_cases hv : v = 0#w
      · simp only [Memory.write, Nat.lt_irrefl, if_false, if_true, hv]
        exact wfFrom_mono h'.2.2.2 (by omega)
      · simp only [Memory.write, Nat.lt_irrefl, if_false, if_true, hv]
        rw [wfFrom_cons]
        exact ⟨hlo, ha, hv, h'.2.2.2⟩
    · simp only [Memory.write, if_neg (show ¬ a < k by omega), if_neg (show a ≠ k by omega)]
      rw [wfFrom_cons]
      exact ⟨h'.1, h'.2.1, h'.2.2.1, ih _ (by omega) h'.2.2.2⟩

/-- A write inside the memory keeps the canonical form. -/
theorem write_wf {size : Nat} {m : Memory w} (h : Memory.wf size m = true) {a : Nat} (ha : a < size) (v : BitVec w) :
    Memory.wf size (m.write a v) = true := wfFrom_write a v ha 0 (Nat.zero_le _) h

/-- Loading an image whose addresses are in range keeps the canonical form. -/
theorem load_wf (c : Config) (image : Image) (hr : Image.inRange c image = true) :
    ∀ m : Memory c.wordWidth, Memory.wf c.memSize m = true → Memory.wf c.memSize (image.load c m) = true := by
  induction image with
  | nil => intro m h; exact h
  | cons p image ih =>
    intro m h
    simp only [Image.inRange, List.all_cons, Bool.and_eq_true, decide_eq_true_eq] at hr
    exact ih (by simpa [Image.inRange] using hr.2) _ (write_wf h hr.1 _)

end Sys2Proof.Machine
end

