-- ==== Sys2Proof/Laws/State.lean ====
section
/-! SUPPORT. One lemma per field per named update of an engine, each true by unfolding that update once, so that no later
proof unfolds a record update. -/

namespace Sys2Proof.Machine

variable {c : Config}

/-! ### raise -/

@[simp] theorem raise_pc (f : FaultValue c.variant) (e : Engine c) : (e.raise f).pc = e.pc := rfl
@[simp] theorem raise_mar (f : FaultValue c.variant) (e : Engine c) : (e.raise f).mar = e.mar := rfl
@[simp] theorem raise_irA (f : FaultValue c.variant) (e : Engine c) : (e.raise f).irA = e.irA := rfl
@[simp] theorem raise_irB (f : FaultValue c.variant) (e : Engine c) : (e.raise f).irB = e.irB := rfl
@[simp] theorem raise_a (f : FaultValue c.variant) (e : Engine c) : (e.raise f).a = e.a := rfl
@[simp] theorem raise_b (f : FaultValue c.variant) (e : Engine c) : (e.raise f).b = e.b := rfl
@[simp] theorem raise_out (f : FaultValue c.variant) (e : Engine c) : (e.raise f).out = e.out := rfl
@[simp] theorem raise_carry (f : FaultValue c.variant) (e : Engine c) : (e.raise f).carry = e.carry := rfl
@[simp] theorem raise_zero (f : FaultValue c.variant) (e : Engine c) : (e.raise f).zero = e.zero := rfl
@[simp] theorem raise_sp (f : FaultValue c.variant) (e : Engine c) : (e.raise f).sp = e.sp := rfl
@[simp] theorem raise_microstep (f : FaultValue c.variant) (e : Engine c) : (e.raise f).microstep = e.microstep := rfl
@[simp] theorem raise_halted (f : FaultValue c.variant) (e : Engine c) : (e.raise f).halted = true := rfl
@[simp] theorem raise_fault (f : FaultValue c.variant) (e : Engine c) : (e.raise f).fault = f := rfl
@[simp] theorem raise_key (f : FaultValue c.variant) (e : Engine c) : (e.raise f).key = e.key := rfl
@[simp] theorem raise_dispData (f : FaultValue c.variant) (e : Engine c) : (e.raise f).dispData = e.dispData := rfl
@[simp] theorem raise_dispCtrl (f : FaultValue c.variant) (e : Engine c) : (e.raise f).dispCtrl = e.dispCtrl := rfl
@[simp] theorem raise_mem (f : FaultValue c.variant) (e : Engine c) : (e.raise f).mem = e.mem := rfl
@[simp] theorem raise_events (f : FaultValue c.variant) (e : Engine c) : (e.raise f).events = e.events := rfl

/-! ### applyReset -/

@[simp] theorem applyReset_pc (e : Engine c) : (e.applyReset).pc = 0 := rfl
@[simp] theorem applyReset_mar (e : Engine c) : (e.applyReset).mar = 0 := rfl
@[simp] theorem applyReset_irA (e : Engine c) : (e.applyReset).irA = 0 := rfl
@[simp] theorem applyReset_irB (e : Engine c) : (e.applyReset).irB = 0 := rfl
@[simp] theorem applyReset_a (e : Engine c) : (e.applyReset).a = 0 := rfl
@[simp] theorem applyReset_b (e : Engine c) : (e.applyReset).b = 0 := rfl
@[simp] theorem applyReset_out (e : Engine c) : (e.applyReset).out = 0 := rfl
@[simp] theorem applyReset_carry (e : Engine c) : (e.applyReset).carry = false := rfl
@[simp] theorem applyReset_zero (e : Engine c) : (e.applyReset).zero = false := rfl
@[simp] theorem applyReset_sp (e : Engine c) : (e.applyReset).sp = ⟨0, c.admitted.1⟩ := rfl
@[simp] theorem applyReset_microstep (e : Engine c) : (e.applyReset).microstep = .t1 := rfl
@[simp] theorem applyReset_halted (e : Engine c) : (e.applyReset).halted = false := rfl
@[simp] theorem applyReset_fault (e : Engine c) : (e.applyReset).fault = .none := rfl
@[simp] theorem applyReset_key (e : Engine c) : (e.applyReset).key = e.key := rfl
@[simp] theorem applyReset_dispData (e : Engine c) : (e.applyReset).dispData = 0 := rfl
@[simp] theorem applyReset_dispCtrl (e : Engine c) : (e.applyReset).dispCtrl = 0 := rfl
@[simp] theorem applyReset_mem (e : Engine c) : (e.applyReset).mem = e.mem := rfl
@[simp] theorem applyReset_events (e : Engine c) : (e.applyReset).events = e.events := rfl

/-! ### latched -/

@[simp] theorem latched_pc (code : Nat) (x : Operand) (e : Engine c) : (latched code x e).pc = e.pc := rfl
@[simp] theorem latched_mar (code : Nat) (x : Operand) (e : Engine c) : (latched code x e).mar = e.pc := rfl
@[simp] theorem latched_irA (code : Nat) (x : Operand) (e : Engine c) : (latched code x e).irA = BitVec.ofNat c.halfWidth code := rfl
@[simp] theorem latched_irB (code : Nat) (x : Operand) (e : Engine c) : (latched code x e).irB = x.setWidth c.halfWidth := rfl
@[simp] theorem latched_a (code : Nat) (x : Operand) (e : Engine c) : (latched code x e).a = e.a := rfl
@[simp] theorem latched_b (code : Nat) (x : Operand) (e : Engine c) : (latched code x e).b = e.b := rfl
@[simp] theorem latched_out (code : Nat) (x : Operand) (e : Engine c) : (latched code x e).out = e.out := rfl
@[simp] theorem latched_carry (code : Nat) (x : Operand) (e : Engine c) : (latched code x e).carry = e.carry := rfl
@[simp] theorem latched_zero (code : Nat) (x : Operand) (e : Engine c) : (latched code x e).zero = e.zero := rfl
@[simp] theorem latched_sp (code : Nat) (x : Operand) (e : Engine c) : (latched code x e).sp = e.sp := rfl
@[simp] theorem latched_microstep (code : Nat) (x : Operand) (e : Engine c) : (latched code x e).microstep = .t3 := rfl
@[simp] theorem latched_halted (code : Nat) (x : Operand) (e : Engine c) : (latched code x e).halted = e.halted := rfl
@[simp] theorem latched_fault (code : Nat) (x : Operand) (e : Engine c) : (latched code x e).fault = e.fault := rfl
@[simp] theorem latched_key (code : Nat) (x : Operand) (e : Engine c) : (latched code x e).key = e.key := rfl
@[simp] theorem latched_dispData (code : Nat) (x : Operand) (e : Engine c) : (latched code x e).dispData = e.dispData := rfl
@[simp] theorem latched_dispCtrl (code : Nat) (x : Operand) (e : Engine c) : (latched code x e).dispCtrl = e.dispCtrl := rfl
@[simp] theorem latched_mem (code : Nat) (x : Operand) (e : Engine c) : (latched code x e).mem = e.mem := rfl
@[simp] theorem latched_events (code : Nat) (x : Operand) (e : Engine c) : (latched code x e).events = e.events := rfl

/-! ### writeBack -/

@[simp] theorem writeBack_pc (cw : ControlWord) (bus : BitVec c.wordWidth) (e : Engine c) : (writeBack cw bus e).pc = nextPc cw e bus := rfl
@[simp] theorem writeBack_mar (cw : ControlWord) (bus : BitVec c.wordWidth) (e : Engine c) : (writeBack cw bus e).mar = (if cw.has .mi then fromBus c bus else e.mar) := rfl
@[simp] theorem writeBack_irA (cw : ControlWord) (bus : BitVec c.wordWidth) (e : Engine c) : (writeBack cw bus e).irA = (if cw.has .ii then opcodeField c.variant bus else e.irA) := rfl
@[simp] theorem writeBack_irB (cw : ControlWord) (bus : BitVec c.wordWidth) (e : Engine c) : (writeBack cw bus e).irB = (if cw.has .ii then operandField c.variant bus else e.irB) := rfl
@[simp] theorem writeBack_a (cw : ControlWord) (bus : BitVec c.wordWidth) (e : Engine c) : (writeBack cw bus e).a = nextA cw e bus := rfl
@[simp] theorem writeBack_b (cw : ControlWord) (bus : BitVec c.wordWidth) (e : Engine c) : (writeBack cw bus e).b = (if cw.has .bi then bus else e.b) := rfl
@[simp] theorem writeBack_out (cw : ControlWord) (bus : BitVec c.wordWidth) (e : Engine c) : (writeBack cw bus e).out = (if cw.has .oi then bus else e.out) := rfl
@[simp] theorem writeBack_carry (cw : ControlWord) (bus : BitVec c.wordWidth) (e : Engine c) : (writeBack cw bus e).carry = nextCarry cw e := rfl
@[simp] theorem writeBack_zero (cw : ControlWord) (bus : BitVec c.wordWidth) (e : Engine c) : (writeBack cw bus e).zero = nextZero cw e := rfl
@[simp] theorem writeBack_sp (cw : ControlWord) (bus : BitVec c.wordWidth) (e : Engine c) : (writeBack cw bus e).sp = nextSp cw e bus := rfl
@[simp] theorem writeBack_microstep (cw : ControlWord) (bus : BitVec c.wordWidth) (e : Engine c) : (writeBack cw bus e).microstep = (if cw.has .orst then .t1 else e.microstep.succ) := rfl
@[simp] theorem writeBack_halted (cw : ControlWord) (bus : BitVec c.wordWidth) (e : Engine c) : (writeBack cw bus e).halted = (cw.has .halt || e.halted) := rfl
@[simp] theorem writeBack_fault (cw : ControlWord) (bus : BitVec c.wordWidth) (e : Engine c) : (writeBack cw bus e).fault = e.fault := rfl
@[simp] theorem writeBack_key (cw : ControlWord) (bus : BitVec c.wordWidth) (e : Engine c) : (writeBack cw bus e).key = e.key := rfl
@[simp] theorem writeBack_dispData (cw : ControlWord) (bus : BitVec c.wordWidth) (e : Engine c) : (writeBack cw bus e).dispData = (if cw.has .di then bus else e.dispData) := rfl
@[simp] theorem writeBack_dispCtrl (cw : ControlWord) (bus : BitVec c.wordWidth) (e : Engine c) : (writeBack cw bus e).dispCtrl = (if cw.has .dc then bus else e.dispCtrl) := rfl
@[simp] theorem writeBack_mem (cw : ControlWord) (bus : BitVec c.wordWidth) (e : Engine c) : (writeBack cw bus e).mem = nextMem cw e bus := rfl
@[simp] theorem writeBack_events (cw : ControlWord) (bus : BitVec c.wordWidth) (e : Engine c) : (writeBack cw bus e).events = e.events ++ emitted cw bus := rfl

/-! ### Updates of the whole machine -/

@[simp] theorem setKey_cfg (k : KeyCode) (s : State) : (s.setKey k).cfg = s.cfg := rfl
@[simp] theorem setKey_clock (k : KeyCode) (s : State) : (s.setKey k).clock = s.clock := rfl
@[simp] theorem setKey_engine (k : KeyCode) (s : State) : (s.setKey k).engine = { s.engine with key := k } := rfl
@[simp] theorem applyReset_cfg (s : State) : s.applyReset.cfg = s.cfg := rfl
@[simp] theorem applyReset_clock (s : State) : s.applyReset.clock = s.clock := rfl
@[simp] theorem applyReset_engine (s : State) : s.applyReset.engine = s.engine.applyReset := rfl
@[simp] theorem placeWord_cfg (s : State) (w : Nat) : (s.placeWord w).cfg = s.cfg := rfl
@[simp] theorem placeWord_clock (s : State) (w : Nat) : (s.placeWord w).clock = s.clock := rfl

end Sys2Proof.Machine
end

