-- ==== Sys2Proof/Laws/ControlWords.lean ====
section
/-! SUPPORT. What one pulse does with each control word of the table (spec/30_encoding.md R88, spec/40 R110): the pulse's
definition is unfolded here, once a word, and cited everywhere else. -/

namespace Sys2Proof.Machine

variable {c : Config}

theorem halfWidth_le (v : Variant) : v.halfWidth ≤ v.wordWidth := by cases v <;> decide

theorem memSize_eq (v : Variant) : v.memSize = 2 ^ v.halfWidth := by cases v <;> rfl

@[simp] theorem onBus_toNat (c : Config) (x : BitVec c.halfWidth) : (onBus c x).toNat = x.toNat := by
  have h : x.toNat < 2 ^ c.wordWidth :=
    Nat.lt_of_lt_of_le x.isLt (Nat.pow_le_pow_right (by decide) (halfWidth_le c.variant))
  simp [onBus, Nat.mod_eq_of_lt h]

/-- Every H-bit value is an address (spec/20_memory.md R52). -/
@[simp] theorem half_lt_memSize (c : Config) (x : BitVec c.halfWidth) : x.toNat < c.memSize := by
  have h := x.isLt
  rwa [Config.memSize, memSize_eq]

theorem memSize_not_le (c : Config) (x : BitVec c.halfWidth) : ¬ c.memSize ≤ x.toNat :=
  Nat.not_le.mpr (half_lt_memSize c x)

@[simp] theorem fromBus_onBus (c : Config) (x : BitVec c.halfWidth) : fromBus c (onBus c x) = x := by
  simp [fromBus, onBus, BitVec.setWidth_setWidth_of_le, halfWidth_le]

/-- Every stack address is in memory (spec/00_scope.md R6, spec/20_memory.md R58). -/
theorem stackAddr_lt (c : Config) (sp : Fin c.stackCap) : stackAddr c sp < c.memSize := by
  have h := c.admitted.2
  have h' := sp.isLt
  simp only [stackAddr, Config.memSize]
  omega

theorem applyWord_co_mi (e : Engine c) (h : e.microstep ≠ .t7) :
    applyWord [.co, .mi] e =
      { e with mar := e.pc, microstep := e.microstep.succ } := by
  simp [applyWord, firstFailedCheck, checkFails, ControlWord.count, ControlWord.has, drivers, readers, aWriters,
    flagWriters, spWriters, memWriters, nload, addressFault, busValue, writeBack, nextPc, nextA, nextCarry, nextZero,
    nextSp, nextMem, emitted, h, memSize_not_le]

theorem applyWord_ro_ii (e : Engine c) (h : e.microstep ≠ .t7) :
    applyWord [.ro, .ii] e =
      { e with
        irA := opcodeField c.variant (e.mem.read e.mar.toNat)
        irB := operandField c.variant (e.mem.read e.mar.toNat)
        microstep := e.microstep.succ } := by
  simp [applyWord, firstFailedCheck, checkFails, ControlWord.count, ControlWord.has, drivers, readers, aWriters,
    flagWriters, spWriters, memWriters, nload, addressFault, busValue, writeBack, nextPc, nextA, nextCarry, nextZero,
    nextSp, nextMem, emitted, h]

theorem applyWord_ce (e : Engine c) (h : e.microstep ≠ .t7) :
    applyWord [.ce] e =
      { e with pc := pcAfter c e.pc, microstep := e.microstep.succ } := by
  simp [applyWord, firstFailedCheck, checkFails, ControlWord.count, ControlWord.has, drivers, readers, aWriters,
    flagWriters, spWriters, memWriters, nload, addressFault, busValue, writeBack, nextPc, nextA, nextCarry, nextZero,
    nextSp, nextMem, emitted, h]

theorem applyWord_ce_orst (e : Engine c) :
    applyWord [.ce, .orst] e =
      { e with pc := pcAfter c e.pc, microstep := .t1 } := by
  simp [applyWord, firstFailedCheck, checkFails, ControlWord.count, ControlWord.has, drivers, readers, aWriters,
    flagWriters, spWriters, memWriters, nload, addressFault, busValue, writeBack, nextPc, nextA, nextCarry, nextZero,
    nextSp, nextMem, emitted]

theorem applyWord_io_mi (e : Engine c) (h : e.microstep ≠ .t7) :
    applyWord [.io, .mi] e =
      { e with mar := e.irB, microstep := e.microstep.succ } := by
  simp [applyWord, firstFailedCheck, checkFails, ControlWord.count, ControlWord.has, drivers, readers, aWriters,
    flagWriters, spWriters, memWriters, nload, addressFault, busValue, writeBack, nextPc, nextA, nextCarry, nextZero,
    nextSp, nextMem, emitted, h, memSize_not_le]

theorem applyWord_ro_ai_orst (e : Engine c) :
    applyWord [.ro, .ai, .orst] e =
      { e with a := e.mem.read e.mar.toNat, microstep := .t1 } := by
  simp [applyWord, firstFailedCheck, checkFails, ControlWord.count, ControlWord.has, drivers, readers, aWriters,
    flagWriters, spWriters, memWriters, nload, addressFault, busValue, writeBack, nextPc, nextA, nextCarry, nextZero,
    nextSp, nextMem, emitted]

theorem applyWord_ao_ri_orst (e : Engine c) :
    applyWord [.ao, .ri, .orst] e =
      { e with mem := e.mem.write e.mar.toNat e.a, microstep := .t1 } := by
  simp [applyWord, firstFailedCheck, checkFails, ControlWord.count, ControlWord.has, drivers, readers, aWriters,
    flagWriters, spWriters, memWriters, nload, addressFault, busValue, writeBack, nextPc, nextA, nextCarry, nextZero,
    nextSp, nextMem, emitted]

theorem applyWord_io_ai_orst (e : Engine c) :
    applyWord [.io, .ai, .orst] e =
      { e with a := onBus c e.irB, microstep := .t1 } := by
  simp [applyWord, firstFailedCheck, checkFails, ControlWord.count, ControlWord.has, drivers, readers, aWriters,
    flagWriters, spWriters, memWriters, nload, addressFault, busValue, writeBack, nextPc, nextA, nextCarry, nextZero,
    nextSp, nextMem, emitted]

theorem applyWord_ro_bi (e : Engine c) (h : e.microstep ≠ .t7) :
    applyWord [.ro, .bi] e =
      { e with b := e.mem.read e.mar.toNat, microstep := e.microstep.succ } := by
  simp [applyWord, firstFailedCheck, checkFails, ControlWord.count, ControlWord.has, drivers, readers, aWriters,
    flagWriters, spWriters, memWriters, nload, addressFault, busValue, writeBack, nextPc, nextA, nextCarry, nextZero,
    nextSp, nextMem, emitted, h]

theorem applyWord_eo_ai_fi_orst (e : Engine c) :
    applyWord [.eo, .ai, .fi, .orst] e =
      { e with
        a := (aluAdd e.a e.b).result
        carry := (aluAdd e.a e.b).carry
        zero := (aluAdd e.a e.b).zero
        microstep := .t1 } := by
  simp [applyWord, firstFailedCheck, checkFails, ControlWord.count, ControlWord.has, drivers, readers, aWriters,
    flagWriters, spWriters, memWriters, nload, addressFault, busValue, writeBack, nextPc, nextA, nextCarry, nextZero,
    nextSp, nextMem, emitted, liveAlu, alu]

theorem applyWord_eo_ai_su_fi_orst (e : Engine c) :
    applyWord [.eo, .ai, .su, .fi, .orst] e =
      { e with
        a := (aluSub e.a e.b).result
        carry := (aluSub e.a e.b).carry
        zero := (aluSub e.a e.b).zero
        microstep := .t1 } := by
  simp [applyWord, firstFailedCheck, checkFails, ControlWord.count, ControlWord.has, drivers, readers, aWriters,
    flagWriters, spWriters, memWriters, nload, addressFault, busValue, writeBack, nextPc, nextA, nextCarry, nextZero,
    nextSp, nextMem, emitted, liveAlu, alu]

theorem applyWord_sl_orst (e : Engine c) :
    applyWord [.sl, .orst] e =
      { e with
        a := (shiftLeft e.a).result
        carry := (shiftLeft e.a).carry
        zero := (shiftLeft e.a).zero
        microstep := .t1 } := by
  simp [applyWord, firstFailedCheck, checkFails, ControlWord.count, ControlWord.has, drivers, readers, aWriters,
    flagWriters, spWriters, memWriters, nload, addressFault, busValue, writeBack, nextPc, nextA, nextCarry, nextZero,
    nextSp, nextMem, emitted]

theorem applyWord_sr_orst (e : Engine c) :
    applyWord [.sr, .orst] e =
      { e with
        a := (shiftRight e.a).result
        carry := (shiftRight e.a).carry
        zero := (shiftRight e.a).zero
        microstep := .t1 } := by
  simp [applyWord, firstFailedCheck, checkFails, ControlWord.count, ControlWord.has, drivers, readers, aWriters,
    flagWriters, spWriters, memWriters, nload, addressFault, busValue, writeBack, nextPc, nextA, nextCarry, nextZero,
    nextSp, nextMem, emitted]

theorem applyWord_io_ju_orst (e : Engine c) :
    applyWord [.io, .ju, .orst] e =
      { e with pc := e.irB, microstep := .t1 } := by
  simp [applyWord, firstFailedCheck, checkFails, ControlWord.count, ControlWord.has, drivers, readers, aWriters,
    flagWriters, spWriters, memWriters, nload, addressFault, busValue, writeBack, nextPc, nextA, nextCarry, nextZero,
    nextSp, nextMem, emitted, memSize_not_le]

theorem applyWord_io_jcy_orst (e : Engine c) :
    applyWord [.io, .jcy, .orst] e =
      { e with pc := if e.carry then e.irB else e.pc, microstep := .t1 } := by
  cases hf : e.carry <;> simp [applyWord, firstFailedCheck, checkFails, ControlWord.count, ControlWord.has, drivers, readers, aWriters,
    flagWriters, spWriters, memWriters, nload, addressFault, busValue, writeBack, nextPc, nextA, nextCarry, nextZero,
    nextSp, nextMem, emitted, hf, memSize_not_le]

theorem applyWord_io_jzr_orst (e : Engine c) :
    applyWord [.io, .jzr, .orst] e =
      { e with pc := if e.zero then e.irB else e.pc, microstep := .t1 } := by
  cases hf : e.zero <;> simp [applyWord, firstFailedCheck, checkFails, ControlWord.count, ControlWord.has, drivers, readers, aWriters,
    flagWriters, spWriters, memWriters, nload, addressFault, busValue, writeBack, nextPc, nextA, nextCarry, nextZero,
    nextSp, nextMem, emitted, hf, memSize_not_le]

theorem applyWord_co_spu (e : Engine c) (h : e.microstep ≠ .t7) :
    applyWord [.co, .spu] e =
      { e with
        mem := e.mem.write (stackAddr c e.sp) (onBus c e.pc)
        sp := spUp c e.sp
        microstep := e.microstep.succ } := by
  simp [applyWord, firstFailedCheck, checkFails, ControlWord.count, ControlWord.has, drivers, readers, aWriters,
    flagWriters, spWriters, memWriters, nload, addressFault, busValue, writeBack, nextPc, nextA, nextCarry, nextZero,
    nextSp, nextMem, emitted, h]

theorem applyWord_spo_ju_orst (e : Engine c) (h : (poppedWord e).toNat < c.memSize) :
    applyWord [.spo, .ju, .orst] e =
      { e with pc := fromBus c (poppedWord e), sp := spDown c e.sp, microstep := .t1 } := by
  simp [applyWord, firstFailedCheck, checkFails, ControlWord.count, ControlWord.has, drivers, readers, aWriters,
    flagWriters, spWriters, memWriters, nload, addressFault, busValue, writeBack, nextPc, nextA, nextCarry, nextZero,
    nextSp, nextMem, emitted, Nat.not_le.mpr h]

theorem applyWord_spo_ai_orst (e : Engine c) :
    applyWord [.spo, .ai, .orst] e =
      { e with a := poppedWord e, sp := spDown c e.sp, microstep := .t1 } := by
  simp [applyWord, firstFailedCheck, checkFails, ControlWord.count, ControlWord.has, drivers, readers, aWriters,
    flagWriters, spWriters, memWriters, nload, addressFault, busValue, writeBack, nextPc, nextA, nextCarry, nextZero,
    nextSp, nextMem, emitted]

theorem applyWord_ao_spu_orst (e : Engine c) :
    applyWord [.ao, .spu, .orst] e =
      { e with mem := e.mem.write (stackAddr c e.sp) e.a, sp := spUp c e.sp, microstep := .t1 } := by
  simp [applyWord, firstFailedCheck, checkFails, ControlWord.count, ControlWord.has, drivers, readers, aWriters,
    flagWriters, spWriters, memWriters, nload, addressFault, busValue, writeBack, nextPc, nextA, nextCarry, nextZero,
    nextSp, nextMem, emitted]

theorem applyWord_ao_spl_orst (e : Engine c) :
    applyWord [.ao, .spl, .orst] e =
      { e with sp := spOf c e.a, microstep := .t1 } := by
  simp [applyWord, firstFailedCheck, checkFails, ControlWord.count, ControlWord.has, drivers, readers, aWriters,
    flagWriters, spWriters, memWriters, nload, addressFault, busValue, writeBack, nextPc, nextA, nextCarry, nextZero,
    nextSp, nextMem, emitted]

theorem applyWord_ko_ai_orst (e : Engine c) :
    applyWord [.ko, .ai, .orst] e =
      { e with a := e.key.setWidth c.wordWidth, microstep := .t1 } := by
  simp [applyWord, firstFailedCheck, checkFails, ControlWord.count, ControlWord.has, drivers, readers, aWriters,
    flagWriters, spWriters, memWriters, nload, addressFault, busValue, writeBack, nextPc, nextA, nextCarry, nextZero,
    nextSp, nextMem, emitted]

theorem applyWord_ao_oi_orst (e : Engine c) :
    applyWord [.ao, .oi, .orst] e =
      { e with out := e.a, microstep := .t1, events := e.events ++ [.output e.a] } := by
  simp [applyWord, firstFailedCheck, checkFails, ControlWord.count, ControlWord.has, drivers, readers, aWriters,
    flagWriters, spWriters, memWriters, nload, addressFault, busValue, writeBack, nextPc, nextA, nextCarry, nextZero,
    nextSp, nextMem, emitted]

theorem applyWord_ao_di_orst (e : Engine c) :
    applyWord [.ao, .di, .orst] e =
      { e with dispData := e.a, microstep := .t1, events := e.events ++ [.displayData e.a] } := by
  simp [applyWord, firstFailedCheck, checkFails, ControlWord.count, ControlWord.has, drivers, readers, aWriters,
    flagWriters, spWriters, memWriters, nload, addressFault, busValue, writeBack, nextPc, nextA, nextCarry, nextZero,
    nextSp, nextMem, emitted]

theorem applyWord_ao_dc_orst (e : Engine c) :
    applyWord [.ao, .dc, .orst] e =
      { e with dispCtrl := e.a, microstep := .t1, events := e.events ++ [.displayControl e.a] } := by
  simp [applyWord, firstFailedCheck, checkFails, ControlWord.count, ControlWord.has, drivers, readers, aWriters,
    flagWriters, spWriters, memWriters, nload, addressFault, busValue, writeBack, nextPc, nextA, nextCarry, nextZero,
    nextSp, nextMem, emitted]

theorem applyWord_halt_orst (e : Engine c) :
    applyWord [.halt, .orst] e =
      { e with halted := true, microstep := .t1 } := by
  simp [applyWord, firstFailedCheck, checkFails, ControlWord.count, ControlWord.has, drivers, readers, aWriters,
    flagWriters, spWriters, memWriters, nload, addressFault, busValue, writeBack, nextPc, nextA, nextCarry, nextZero,
    nextSp, nextMem, emitted]

/-- RET's pulse on a popped word that is no address (spec/43_control_transfer.md R174). -/
theorem applyWord_spo_ju_orst_fault (e : Engine c) (h : c.memSize ≤ (poppedWord e).toNat) :
    applyWord [.spo, .ju, .orst] e = e.raise (.addressOutOfRange (poppedWord e)) := by
  simp [applyWord, firstFailedCheck, checkFails, ControlWord.count, ControlWord.has, drivers, readers, aWriters,
    flagWriters, spWriters, memWriters, nload, addressFault, busValue, h]

end Sys2Proof.Machine
end

