-- ==== Sys2Proof/Laws/Decode.lean ====
section
/-! SUPPORT. The fields of an instruction word, and the opcode map read in both directions. -/

namespace Sys2Proof

@[simp] theorem opcode_instr (op : Opcode) (x : Operand) : (op.instr x).opcode = op := by cases op <;> rfl

@[simp] theorem operand_instr (op : Opcode) (x : Operand) : (op.instr x).operand = x := by cases op <;> rfl

@[simp] theorem instr_opcode_operand (i : Instr) : i.opcode.instr i.operand = i := by cases i <;> rfl

/-- An opcode found under a code is the one of that code, and its variant has it. -/
theorem opcodeOf_some {v : Variant} {code : BitVec v.halfWidth} {op : Opcode} (h : opcodeOf v code = some op) :
    code = BitVec.ofNat v.halfWidth op.code ∧ op.existsIn v = true := by
  revert code op
  cases v
  · have key : ∀ code : BitVec 4, ∀ op, baseOpcodeMap code.toNat = some op →
        code = BitVec.ofNat 4 op.code ∧ op.existsIn .base = true := by
      intro code
      have : ∀ code : BitVec 4, ∀ op ∈ baseOpcodeMap code.toNat,
        code = BitVec.ofNat 4 op.code ∧ op.existsIn .base = true := by decide
      exact this code
    exact fun {code op} h => key code op h
  · have key : ∀ code : BitVec 8, ∀ op ∈ opcodeOf .ext code,
        code = BitVec.ofNat 8 op.code ∧ op.existsIn .ext = true := by decide
    exact fun {code op} h => key code op h

/-- The opcode map finds every opcode of the variant under its code. -/
theorem opcodeOf_code {v : Variant} {op : Opcode} (h : op.existsIn v = true) :
    opcodeOf v (BitVec.ofNat v.halfWidth op.code) = some op := by
  revert h; cases v <;> cases op <;> decide

/-- Every code of a variant fits its opcode field. -/
theorem code_lt {v : Variant} {op : Opcode} (h : op.existsIn v = true) : op.code < 2 ^ v.halfWidth := by
  revert h; cases v <;> cases op <;> decide

theorem joinFields_toNat {v : Variant} {op x : Nat} (hop : op < 2 ^ v.halfWidth) (hx : x < 2 ^ v.halfWidth) :
    (joinFields v op x).toNat = op * 2 ^ v.halfWidth + x := by
  unfold joinFields
  rw [BitVec.toNat_ofNat]
  apply Nat.mod_eq_of_lt
  cases v <;> simp only [Variant.wordWidth, Variant.halfWidth] at * <;> omega

/-- The opcode field of `{op, x}` is op (spec/30_encoding.md R80). -/
theorem opcodeField_joinFields {v : Variant} {op x : Nat} (hop : op < 2 ^ v.halfWidth) (hx : x < 2 ^ v.halfWidth) :
    opcodeField v (joinFields v op x) = BitVec.ofNat v.halfWidth op := by
  apply BitVec.eq_of_toNat_eq
  rw [opcodeField, BitVec.extractLsb'_toNat, joinFields_toNat hop hx, BitVec.toNat_ofNat, Nat.shiftRight_eq_div_pow,
    Nat.mul_comm, Nat.mul_add_div (Nat.two_pow_pos _), Nat.div_eq_of_lt hx, Nat.add_zero]

/-- The operand field of `{op, x}` is x (spec/30_encoding.md R80). -/
theorem operandField_joinFields {v : Variant} {op x : Nat} (hop : op < 2 ^ v.halfWidth) (hx : x < 2 ^ v.halfWidth) :
    operandField v (joinFields v op x) = BitVec.ofNat v.halfWidth x := by
  apply BitVec.eq_of_toNat_eq
  rw [operandField, BitVec.extractLsb'_toNat, joinFields_toNat hop hx, BitVec.toNat_ofNat, Nat.shiftRight_zero,
    Nat.add_comm, Nat.add_mul_mod_self_right]

/-- A word is `{opcode field, operand field}` (spec/30_encoding.md R80). -/
theorem joinFields_fields (v : Variant) (w : BitVec v.wordWidth) :
    joinFields v (opcodeField v w).toNat (operandField v w).toNat = w := by
  apply BitVec.eq_of_toNat_eq
  have hw := w.isLt
  rw [joinFields_toNat (opcodeField v w).isLt (operandField v w).isLt, opcodeField, operandField,
    BitVec.extractLsb'_toNat, BitVec.extractLsb'_toNat, Nat.shiftRight_zero, Nat.shiftRight_eq_div_pow]
  cases v <;> simp only [Variant.wordWidth, Variant.halfWidth] at * <;> omega

end Sys2Proof
end

