-- ==== Sys2Proof/Laws/Pulse.lean ====
section
/-! SUPPORT. One pulse of a running engine, microstep by microstep; sequences of pulses; and what a whole instruction's
first two pulses leave. -/

namespace Sys2Proof.Machine

variable {c : Config}

/-- A pulse of a running engine whose opcode is valid, or which is still fetching, applies its control word. -/
theorem pulse_running {e : Engine c} (hh : e.halted = false) (hv : invalidAtExecute e = false) :
    pulse e = applyWord (controlWord c.variant e.irA e.microstep) e := by
  simp [pulse, hh, hv]

theorem pulse_halted {e : Engine c} (hh : e.halted = true) : pulse e = e := by simp [pulse, hh]

/-- A pulse at an execute microstep of a valid opcode. -/
theorem pulse_valid {e : Engine c} {op : Opcode} (hh : e.halted = false) (hop : opcodeOf c.variant e.irA = some op) :
    pulse e = applyWord (controlWord c.variant e.irA e.microstep) e :=
  pulse_running hh (by simp [invalidAtExecute, hop])

/-- A pulse at an execute microstep of an opcode without a descriptor (spec/40_pulse_engine.md R123). -/
theorem pulse_invalid {e : Engine c} (hh : e.halted = false) (h4 : 4 ≤ e.microstep.number)
    (hop : opcodeOf c.variant e.irA = none) : pulse e = e.raise (.invalidOpcode e.irA) := by
  simp [pulse, hh, invalidAtExecute, h4, hop]

theorem pulse_t1 {e : Engine c} (hh : e.halted = false) (hk : e.microstep = .t1) :
    pulse e = { e with mar := e.pc, microstep := .t2 } := by
  rw [pulse_running hh (by simp [invalidAtExecute, hk, Microstep.number])]
  simp only [hk, controlWord]
  rw [applyWord_co_mi e (by simp [hk]), hk]
  rfl

theorem pulse_t2 {e : Engine c} (hh : e.halted = false) (hk : e.microstep = .t2) :
    pulse e = { e with
      irA := opcodeField c.variant (e.mem.read e.mar.toNat)
      irB := operandField c.variant (e.mem.read e.mar.toNat)
      microstep := .t3 } := by
  rw [pulse_running hh (by simp [invalidAtExecute, hk, Microstep.number])]
  simp only [hk, controlWord]
  rw [applyWord_ro_ii e (by simp [hk]), hk]
  rfl

theorem pulse_t3 {e : Engine c} (hh : e.halted = false) (hk : e.microstep = .t3) :
    pulse e = applyWord (thirdFetchWord (opcodeOf c.variant e.irA)) e := by
  rw [pulse_running hh (by simp [invalidAtExecute, hk, Microstep.number])]
  simp only [hk, controlWord]

@[simp] theorem pulses_zero (e : Engine c) : pulses 0 e = e := rfl

theorem pulses_succ (n : Nat) (e : Engine c) : pulses (n + 1) e = pulses n (pulse e) := rfl

theorem pulses_add (m n : Nat) (e : Engine c) : pulses (m + n) e = pulses n (pulses m e) := by
  induction m generalizing e with
  | zero => simp
  | succ m ih => rw [Nat.succ_add, pulses_succ, pulses_succ, ih]

theorem pulses_halted {e : Engine c} (hh : e.halted = true) (n : Nat) : pulses n e = e := by
  induction n with
  | zero => rfl
  | succ n ih => rw [pulses_succ, pulse_halted hh, ih]

theorem runWords_halted {e : Engine c} (hh : e.halted = true) (words : List ControlWord) : runWords words e = e := by
  cases words with
  | nil => rfl
  | cons cw rest => simp [runWords, hh]

theorem runWords_cons {e : Engine c} (hh : e.halted = false) (cw : ControlWord) (rest : List ControlWord) :
    runWords (cw :: rest) e = runWords rest (applyWord cw e) := by
  simp [runWords, hh]

@[simp] theorem runWords_nil (e : Engine c) : runWords [] e = e := rfl

/-- The first two pulses of an instruction whose word stands at PC give what its meaning starts from. -/
theorem pulses_two_of_fetch {e : Engine c} {op : Opcode} {x : Operand} (hh : e.halted = false)
    (hk : e.microstep = .t1) (hop : op.existsIn c.variant = true) (hx : x.toNat < 2 ^ c.halfWidth)
    (hw : e.mem.read e.pc.toNat = encode c.variant (op.instr x)) :
    pulses 2 e = latched op.code x e := by
  rw [pulses_succ, pulses_succ, pulse_t1 hh hk,
    pulse_t2 (e := { e with mar := e.pc, microstep := .t2 }) hh rfl]
  simp only [pulses_zero, latched, hw, encode, opcode_instr, operand_instr,
    opcodeField_joinFields (code_lt hop) hx, operandField_joinFields (code_lt hop) hx]
  congr 1
  exact BitVec.eq_of_toNat_eq (by rw [BitVec.toNat_ofNat, BitVec.toNat_setWidth])

/-- Everything a pulse with a given control word can do: raise one fault, or write back with no check failing and every
address load in range (spec/40_pulse_engine.md R120). -/
theorem applyWord_cases (cw : ControlWord) (e : Engine c) :
    (∃ f, f ≠ .none ∧ applyWord cw e = e.raise f)
      ∨ (firstFailedCheck cw e = none ∧ addressFault cw e ((busValue cw e).getD 0#c.wordWidth) = none
          ∧ applyWord cw e = writeBack cw ((busValue cw e).getD 0#c.wordWidth) e) := by
  unfold applyWord
  cases h : firstFailedCheck cw e with
  | some k => exact .inl ⟨_, by simp, rfl⟩
  | none =>
    cases h2 : addressFault cw e ((busValue cw e).getD 0#c.wordWidth) with
    | some a => exact .inl ⟨.addressOutOfRange a, by simp, by simp [h2]⟩
    | none => exact .inr (by simp [h2])

/-- Everything a pulse can do: nothing on a halted engine, raise InvalidOpcode, or apply its control word
(spec/40_pulse_engine.md R120, R123, R125). -/
theorem pulse_cases (e : Engine c) :
    (e.halted = true ∧ pulse e = e)
      ∨ (e.halted = false ∧ 4 ≤ e.microstep.number ∧ opcodeOf c.variant e.irA = none
          ∧ pulse e = e.raise (.invalidOpcode e.irA))
      ∨ (e.halted = false ∧ (4 ≤ e.microstep.number → ∃ op, opcodeOf c.variant e.irA = some op)
          ∧ pulse e = applyWord (controlWord c.variant e.irA e.microstep) e) := by
  cases hh : e.halted with
  | true => exact .inl ⟨rfl, pulse_halted hh⟩
  | false =>
    cases hv : invalidAtExecute e with
    | true =>
      simp only [invalidAtExecute, Bool.and_eq_true, decide_eq_true_eq, Option.isNone_iff_eq_none] at hv
      exact .inr (.inl ⟨rfl, hv.1, hv.2, pulse_invalid hh hv.1 hv.2⟩)
    | false =>
      refine .inr (.inr ⟨rfl, fun h4 => ?_, pulse_running hh hv⟩)
      simp only [invalidAtExecute, h4, decide_true, Bool.true_and] at hv
      exact Option.isSome_iff_exists.mp (by simpa using hv)

end Sys2Proof.Machine
end

