-- ==== Sys2Proof/Laws/Checks.lean ====
section
/-! SUPPORT. When no defensive check fails (spec/40_pulse_engine.md R119), from the control word alone. -/

namespace Sys2Proof.Machine

variable {c : Config}

theorem has_iff_mem (cw : ControlWord) (x : Signal) : cw.has x = true ↔ x ∈ cw := by simp [ControlWord.has]

theorem has_eq_false (cw : ControlWord) (x : Signal) : cw.has x = false ↔ x ∉ cw := by simp [ControlWord.has]

/-- At most as many PC loads are active as the control word holds jump signals. -/
theorem nload_le (cw : ControlWord) (e : Engine c) : nload cw e ≤ cw.count [.ju, .jcy, .jzr] := by
  unfold nload ControlWord.count
  cases h1 : cw.has .ju <;> cases h2 : cw.has .jcy <;> cases h3 : cw.has .jzr <;> cases e.carry <;> cases e.zero <;>
    simp [h1, h2, h3, List.filter]

/-- A control word that passes K1 to K8 whatever the flags hold. -/
def ControlWord.passes (cw : ControlWord) : Bool :=
  decide (cw.count drivers ≤ 1) && decide (cw.count [.ju, .jcy, .jzr] ≤ 1)
    && (decide (cw.count readers = 0) || decide (cw.count drivers ≠ 0))
    && (decide (cw.count [.ju, .jcy, .jzr] = 0) || !cw.has .ce) && decide (cw.count aWriters ≤ 1)
    && decide (cw.count flagWriters ≤ 1) && decide (cw.count spWriters ≤ 1) && decide (cw.count memWriters ≤ 1)

/-- Such a word fails no check where it holds ORST or is not at the last microstep. -/
theorem firstFailedCheck_of_passes {cw : ControlWord} {e : Engine c} (h : cw.passes = true)
    (h9 : cw.has .orst = true ∨ e.microstep ≠ .t7) : firstFailedCheck cw e = none := by
  have hn := nload_le cw e
  unfold ControlWord.passes at h
  simp only [Bool.and_eq_true, decide_eq_true_eq, Bool.or_eq_true, Bool.not_eq_true'] at h
  obtain ⟨⟨⟨⟨⟨⟨⟨a1, a2⟩, a3⟩, a4⟩, a5⟩, a6⟩, a7⟩, a8⟩ := h
  have k1 : checkFails cw e .k1 = false := decide_eq_false (show ¬ 2 ≤ cw.count drivers from Nat.not_le_of_lt (Nat.lt_succ_of_le a1))
  have k2 : checkFails cw e .k2 = false := decide_eq_false (show ¬ 2 ≤ nload cw e from Nat.not_le_of_lt (Nat.lt_succ_of_le (hn.trans a2)))
  have k3 : checkFails cw e .k3 = false := by
    show (decide (cw.count readers ≠ 0) && decide (cw.count drivers = 0)) = false
    rcases a3 with a | a
    · rw [decide_eq_false (by simp [a])]; rfl
    · rw [Bool.and_comm, decide_eq_false a]; rfl
  have k4 : checkFails cw e .k4 = false := by
    show (decide (nload cw e = 1) && cw.has .ce) = false
    rcases a4 with a | a
    · rw [show nload cw e = 0 from Nat.le_zero.mp (a ▸ hn)]; rfl
    · rw [Bool.and_comm, a]; rfl
  have k5 : checkFails cw e .k5 = false := decide_eq_false (show ¬ 2 ≤ cw.count aWriters from Nat.not_le_of_lt (Nat.lt_succ_of_le a5))
  have k6 : checkFails cw e .k6 = false := decide_eq_false (show ¬ 2 ≤ cw.count flagWriters from Nat.not_le_of_lt (Nat.lt_succ_of_le a6))
  have k7 : checkFails cw e .k7 = false := decide_eq_false (show ¬ 2 ≤ cw.count spWriters from Nat.not_le_of_lt (Nat.lt_succ_of_le a7))
  have k8 : checkFails cw e .k8 = false := decide_eq_false (show ¬ 2 ≤ cw.count memWriters from Nat.not_le_of_lt (Nat.lt_succ_of_le a8))
  have k9 : checkFails cw e .k9 = false := by
    show (!cw.has .orst && decide (e.microstep = .t7)) = false
    rcases h9 with a | a
    · rw [a]; rfl
    · rw [Bool.and_comm, decide_eq_false a]; rfl
  unfold firstFailedCheck
  simp only [List.find?, k1, k2, k3, k4, k5, k6, k7, k8, k9]

end Sys2Proof.Machine
end

