-- ==== Sys2Proof/Laws/Completion.lean ====
section
/-! SUPPORT. From the words of a meaning to the pulses of an instruction, and from pulses to a step. -/

namespace Sys2Proof.Machine

variable {c : Config}

theorem wellFormed_iff {v : Variant} {i : Instr} :
    WellFormed v i = true ↔ i.opcode.existsIn v = true ∧ i.operand.toNat < 2 ^ v.halfWidth := by
  simp [WellFormed, Instr.operandFits]

theorem settle_done {e : Engine c} (h : e.halted = true ∨ e.microstep = .t1) (n : Nat) : settle n e = e := by
  cases n with
  | zero => rfl
  | succ n => rcases h with h | h <;> simp [settle, h]

/-- `settle` runs the pulses up to the first boundary. -/
theorem settle_eq_pulses {n : Nat} : ∀ {m : Nat} {e : Engine c}, n ≤ m →
    (∀ k, k < n → (pulses k e).halted = false ∧ (pulses k e).microstep ≠ .t1) →
    ((pulses n e).halted = true ∨ (pulses n e).microstep = .t1) → settle m e = pulses n e := by
  induction n with
  | zero => intro m e _ _ h; exact settle_done h m
  | succ n ih =>
    intro m e hm hk hd
    obtain ⟨m, rfl⟩ : ∃ m', m = m' + 1 := ⟨m - 1, by omega⟩
    obtain ⟨h1, h2⟩ := hk 0 (by omega)
    simp only [pulses_zero] at h1 h2
    rw [settle, h1, decide_eq_false h2]
    simp only [Bool.or_false, Bool.false_eq_true, if_false]
    exact ih (by omega) (fun k hk' => hk (k + 1) (by omega)) hd

/-- `toBoundary` is the pulses up to the first boundary, where that is at most seven pulses away. -/
theorem toBoundary_eq_pulses {n : Nat} {e : Engine c} (hh : e.halted = false) (h1 : 1 ≤ n) (h7 : n ≤ 7)
    (hk : ∀ k, 0 < k → k < n → (pulses k e).halted = false ∧ (pulses k e).microstep ≠ .t1)
    (hd : (pulses n e).halted = true ∨ (pulses n e).microstep = .t1) : toBoundary e = pulses n e := by
  obtain ⟨n, rfl⟩ : ∃ m', n = m' + 1 := ⟨n - 1, by omega⟩
  simp only [toBoundary, hh, Bool.false_eq_true, if_false]
  exact settle_eq_pulses (by omega) (fun k hk' => hk (k + 1) (by omega) (by omega)) hd

/-- An instruction whose meaning runs `words` from the latched state completes with their result, where the pulses from
that state reach the same. -/
theorem completesAs_of_words {i : Instr} {s : State} {words : List ControlWord} {n : Nat} {r : Engine s.cfg}
    (he : exec i s = .next { s with engine := runWords words (latched i.opcode.code i.operand s.engine) })
    (hr : runWords words (latched i.opcode.code i.operand s.engine) = r)
    (hp : opcodeOf s.cfg.variant (BitVec.ofNat s.cfg.halfWidth i.opcode.code) = some i.opcode →
      pulses n (latched i.opcode.code i.operand s.engine) = r ∧
      ∀ k, k < n → (pulses k (latched i.opcode.code i.operand s.engine)).halted = false ∧
        (pulses k (latched i.opcode.code i.operand s.engine)).microstep ≠ .t1)
    (hh : s.engine.halted = false) : CompletesAs i s (n + 2) r := by
  refine ⟨by rw [he, hr], fun hk hw hf => ?_⟩
  obtain ⟨h1, h2⟩ := wellFormed_iff.mp hw
  have h2p : pulses 2 s.engine = latched i.opcode.code i.operand s.engine :=
    pulses_two_of_fetch hh hk h1 h2 (by rw [instr_opcode_operand]; exact hf)
  obtain ⟨p1, p2⟩ := hp (opcodeOf_code h1)
  refine ⟨by rw [Nat.add_comm, pulses_add, h2p, p1], fun k k0 kn => ?_⟩
  rcases k with _ | _ | k
  · omega
  · simp [pulses_succ, pulse_t1 hh hk, hh]
  · rw [Nat.add_comm, Nat.add_comm k 1, ← Nat.add_assoc, pulses_add, h2p]
    exact p2 k (by omega)

end Sys2Proof.Machine
end

