-- ==== Sys2Proof/Laws/Flags.lean ====
section
/-! SUPPORT. The ALU and the shifts in terms of natural numbers, where their definitions use integers or single bits. -/

namespace Sys2Proof.Machine

variable {w : Nat}

theorem ofNat_mod_two_pow (n : Nat) : BitVec.ofNat w (n % 2 ^ w) = BitVec.ofNat w n := by
  apply BitVec.eq_of_toNat_eq; simp

theorem ofNat_eq_zero_iff (n : Nat) : BitVec.ofNat w n = 0#w ↔ n % 2 ^ w = 0 := by
  constructor
  · intro h; simpa using congrArg BitVec.toNat h
  · intro h; apply BitVec.eq_of_toNat_eq; simpa using h

/-- The subtraction of spec/40_pulse_engine.md R108 without a negative number: borrow 2^W where A is below B. -/
theorem aluSub_result (a b : BitVec w) :
    (aluSub a b).result
      = BitVec.ofNat w (if b.toNat ≤ a.toNat then a.toNat - b.toNat else a.toNat + 2 ^ w - b.toNat) := by
  show BitVec.ofInt w ((a.toNat : Int) - (b.toNat : Int)) = _
  apply BitVec.eq_of_toInt_eq
  rw [BitVec.toInt_ofInt, BitVec.toInt_ofNat']
  have := b.isLt
  split
  · rw [Int.ofNat_sub (by assumption)]
  · rw [show ((↑(a.toNat + 2 ^ w - b.toNat) : Int)) = (a.toNat : Int) - b.toNat + (2 ^ w : Nat) by omega]
    exact (Int.add_bmod_right _ _).symm

/-- A difference is 0 exactly where the operands are equal. -/
theorem aluSub_result_eq_zero (a b : BitVec w) : (aluSub a b).result = 0#w ↔ a = b := by
  rw [aluSub_result, ofNat_eq_zero_iff]
  have h1 := a.isLt
  have h2 := b.isLt
  constructor
  · intro h
    apply BitVec.eq_of_toNat_eq
    split at h <;> rw [Nat.mod_eq_of_lt (by omega)] at h <;> omega
  · rintro rfl; simp

theorem shiftLeft_carry (a : BitVec w) : (shiftLeft a).carry = decide (2 ^ (w - 1) ≤ a.toNat) := by
  show a.getLsbD (w - 1) = _
  rw [← BitVec.msb_eq_getLsbD_last, BitVec.msb_eq_decide]

theorem shiftRight_carry (a : BitVec w) : (shiftRight a).carry = decide (a.toNat % 2 = 1) := by
  show a.getLsbD 0 = _
  simp [BitVec.getLsbD, Nat.testBit_zero]

end Sys2Proof.Machine
end

