-- ==== Sys2Proof/Laws/PerInstr.lean ====
section
/-! SUPPORT. The family `OpcodeFound`: for each instruction, its opcode and operand rebuild it, and the opcode map of every
variant that has its opcode finds it under its code (spec/30_encoding.md R88, R90). -/

namespace Sys2Proof.Laws.OpcodeFound

/-- What the family says of one instruction. -/
def Statement (i : Instr) : Prop :=
  i.opcode.instr i.operand = i
    ∧ ∀ v : Variant, i.opcode.existsIn v = true → opcodeOf v (BitVec.ofNat v.halfWidth i.opcode.code) = some i.opcode

theorem nop (x : Operand) : Statement (.nop x) :=
  ⟨rfl, fun _ h => opcodeOf_code h⟩

theorem lda (x : Operand) : Statement (.lda x) :=
  ⟨rfl, fun _ h => opcodeOf_code h⟩

theorem add (x : Operand) : Statement (.add x) :=
  ⟨rfl, fun _ h => opcodeOf_code h⟩

theorem sub (x : Operand) : Statement (.sub x) :=
  ⟨rfl, fun _ h => opcodeOf_code h⟩

theorem sta (x : Operand) : Statement (.sta x) :=
  ⟨rfl, fun _ h => opcodeOf_code h⟩

theorem ldi (x : Operand) : Statement (.ldi x) :=
  ⟨rfl, fun _ h => opcodeOf_code h⟩

theorem jmp (x : Operand) : Statement (.jmp x) :=
  ⟨rfl, fun _ h => opcodeOf_code h⟩

theorem jc (x : Operand) : Statement (.jc x) :=
  ⟨rfl, fun _ h => opcodeOf_code h⟩

theorem jz (x : Operand) : Statement (.jz x) :=
  ⟨rfl, fun _ h => opcodeOf_code h⟩

theorem shl (x : Operand) : Statement (.shl x) :=
  ⟨rfl, fun _ h => opcodeOf_code h⟩

theorem shr (x : Operand) : Statement (.shr x) :=
  ⟨rfl, fun _ h => opcodeOf_code h⟩

theorem key (x : Operand) : Statement (.key x) :=
  ⟨rfl, fun _ h => opcodeOf_code h⟩

theorem out (x : Operand) : Statement (.out x) :=
  ⟨rfl, fun _ h => opcodeOf_code h⟩

theorem hlt (x : Operand) : Statement (.hlt x) :=
  ⟨rfl, fun _ h => opcodeOf_code h⟩

theorem psh (x : Operand) : Statement (.psh x) :=
  ⟨rfl, fun _ h => opcodeOf_code h⟩

theorem pop (x : Operand) : Statement (.pop x) :=
  ⟨rfl, fun _ h => opcodeOf_code h⟩

theorem cal (x : Operand) : Statement (.cal x) :=
  ⟨rfl, fun _ h => opcodeOf_code h⟩

theorem ret (x : Operand) : Statement (.ret x) :=
  ⟨rfl, fun _ h => opcodeOf_code h⟩

theorem lsp (x : Operand) : Statement (.lsp x) :=
  ⟨rfl, fun _ h => opcodeOf_code h⟩

theorem dsd (x : Operand) : Statement (.dsd x) :=
  ⟨rfl, fun _ h => opcodeOf_code h⟩

theorem dsc (x : Operand) : Statement (.dsc x) :=
  ⟨rfl, fun _ h => opcodeOf_code h⟩


end Sys2Proof.Laws.OpcodeFound
end

