-- ==== Sys2Proof/Tests/Slice0.lean ====
section
/-! SUPPORT. Tests of the model against the worked examples and vectors of spec/95_test_vectors.md (the section is named
at each group), the smoke test of `WellFormed`, and a witness for the hypotheses of each statement. -/

namespace Sys2Proof.Tests

open Sys2Proof Sys2Proof.Machine

/-- A BASE machine with this engine. -/
def onBase (e : Engine Config.baseDefault) : State :=
  { cfg := Config.baseDefault, engine := e, clock := { targetHz := 0, acc := 0 } }

/-- An EXT machine with this engine. -/
def onExt (e : Engine Config.extDefault) : State :=
  { cfg := Config.extDefault, engine := e, clock := { targetHz := 0, acc := 0 } }

/-- A BASE engine right after reset. -/
def base : Engine Config.baseDefault := Engine.initial Config.baseDefault

/-- An EXT engine right after reset. -/
def ext : Engine Config.extDefault := Engine.initial Config.extDefault

/-- A stack pointer of the default EXT stack. -/
def slot (n : Nat) : Fin Config.extDefault.stackCap := ⟨n % 16, Nat.mod_lt _ (by decide)⟩

/-- What a step shows through `f`; nothing where it answers no next state. -/
def look (s : State) (f : State → List Nat) : List Nat :=
  match step s with
  | .next t => f t
  | _ => []

/-- PC, A and microstep. -/
def pcA (s : State) : List Nat := [s.engine.pc.toNat, s.engine.a.toNat, s.engine.microstep.number]

/-- A, carry, zero, B. -/
def flags (s : State) : List Nat :=
  [s.engine.a.toNat, s.engine.carry.toNat, s.engine.zero.toNat, s.engine.b.toNat]

/-- PC, SP and the word at an address. -/
def stack (addr : Nat) (s : State) : List Nat :=
  [s.engine.pc.toNat, s.engine.sp.val, (s.engine.mem.read addr).toNat]

/-- PC, microstep, halted and the fault code. -/
def stopped (s : State) : List Nat :=
  [s.engine.pc.toNat, s.engine.microstep.number, s.engine.halted.toNat, s.engine.fault.code]

/-! ### WellFormed: one ill-formed term for each check -/

theorem test_wf_ext_only_in_base : WellFormed .base (.cal 1) = false := by decide
theorem test_wf_ext_only_in_ext : WellFormed .ext (.cal 1) = true := by decide
theorem test_wf_operand_too_wide : WellFormed .base (.lda 16) = false := by decide
theorem test_wf_operand_widest : WellFormed .base (.lda 15) = true := by decide

/-! ### Decoding: spec/95_test_vectors.md section 2.1, a word for every constructor -/

theorem test_decode_nop : decode .base 0x00#8 = .ok (.nop 0) := by decide
theorem test_decode_lda : decode .base 0x1E#8 = .ok (.lda 14) := by decide
theorem test_decode_add : decode .base 0x2F#8 = .ok (.add 15) := by decide
theorem test_decode_sub : decode .base 0x3C#8 = .ok (.sub 12) := by decide
theorem test_decode_sta : decode .base 0x4D#8 = .ok (.sta 13) := by decide
theorem test_decode_ldi : decode .base 0x55#8 = .ok (.ldi 5) := by decide
theorem test_decode_ldi_ext : decode .ext 0x05FF#16 = .ok (.ldi 255) := by decide
theorem test_decode_jmp : decode .base 0x64#8 = .ok (.jmp 4) := by decide
theorem test_decode_jc : decode .base 0x70#8 = .ok (.jc 0) := by decide
theorem test_decode_jz : decode .base 0x88#8 = .ok (.jz 8) := by decide
theorem test_decode_shl : decode .base 0x9F#8 = .ok (.shl 15) := by decide
theorem test_decode_shr : decode .base 0xA0#8 = .ok (.shr 0) := by decide
theorem test_decode_shr_ext : decode .ext 0x0A37#16 = .ok (.shr 0x37) := by decide
theorem test_decode_key : decode .base 0xB0#8 = .ok (.key 0) := by decide
theorem test_decode_out : decode .base 0xE0#8 = .ok (.out 0) := by decide
theorem test_decode_hlt : decode .base 0xF0#8 = .ok (.hlt 0) := by decide
theorem test_decode_lda_not_psh : decode .base 0x10#8 = .ok (.lda 0) := by decide
theorem test_decode_psh : decode .ext 0x1000#16 = .ok (.psh 0) := by decide
theorem test_decode_pop : decode .ext 0x1100#16 = .ok (.pop 0) := by decide
theorem test_decode_cal : decode .ext 0x1210#16 = .ok (.cal 0x10) := by decide
theorem test_decode_ret : decode .ext 0x1300#16 = .ok (.ret 0) := by decide
theorem test_decode_lsp : decode .ext 0x1400#16 = .ok (.lsp 0) := by decide
theorem test_decode_dsd : decode .ext 0x1548#16 = .ok (.dsd 0x48) := by decide
theorem test_decode_dsc : decode .ext 0x1600#16 = .ok (.dsc 0) := by decide
theorem test_decode_invalid_base : decode .base 0xC7#8 = .error (.invalidOpcode 0xC)
    ∧ decode .base 0xD0#8 = .error (.invalidOpcode 0xD) := by decide
theorem test_decode_invalid_ext : decode .ext 0x0C00#16 = .error (.invalidOpcode 0x0C)
    ∧ decode .ext 0x17FF#16 = .error (.invalidOpcode 0x17) ∧ decode .ext 0xFFFF#16 = .error (.invalidOpcode 0xFF) := by
  decide

theorem test_decodeTableWord : decodeTableWord 8 0x1E = some (.lda 14) ∧ decodeTableWord 16 0x1210 = some (.cal 0x10)
    ∧ decodeTableWord 8 0xC0 = none := by decide

/-- A word of the other variant is placed on a new engine of that variant, and the next step runs it. -/
theorem test_withFetchWord : look (State.reset.withFetchWord 8 0x55) pcA = [1, 5, 1]
    ∧ look (State.reset.withFetchWord 16 0x05FF) pcA = [1, 255, 1] := by decide

/-! ### Memory -/

theorem test_reset_memory_canonical : Memory.wf 256 State.reset.engine.mem = true := by decide
theorem test_memory_canonical : Memory.write (Memory.write (Memory.write ([] : Memory 8) 3 7) 1 9) 3 0 = [(1, 9)] := by decide

/-! ### The ALU and shifts: sections 2.2 and 2.3 -/

theorem test_add_wraps :
    look (onBase { base with a := 250, mem := [(0, 0x2F), (15, 10)] }) flags = [4, 1, 0, 10] := by decide
theorem test_add_ext_no_carry :
    look (onExt { ext with a := 0xFA, mem := [(0, 0x020F), (15, 10)] }) flags = [0x104, 0, 0, 10] := by decide
theorem test_sub_equal :
    look (onBase { base with a := 5, mem := [(0, 0x3F), (15, 5)] }) flags = [0, 1, 1, 5] := by decide
theorem test_sub_borrows :
    look (onBase { base with a := 3, carry := true, mem := [(0, 0x3F), (15, 5)] }) flags = [254, 0, 0, 5] := by decide
theorem test_alu_largest_sum : alu 0xFF#8 0xFF#8 false = { result := 0xFE#8, carry := true, zero := false } := by decide
theorem test_alu_largest_borrow :
    alu 0x0000#16 0xFFFF#16 true = { result := 1#16, carry := false, zero := false } := by decide
theorem test_shl : look (onBase { base with a := 0x99, mem := [(0, 0x90)] }) flags = [0x32, 1, 0, 0] := by decide
theorem test_shl_ext : look (onExt { ext with a := 0xFF, carry := true, mem := [(0, 0x0900)] }) flags
    = [0x1FE, 0, 0, 0] := by decide
theorem test_shr : look (onBase { base with a := 0x69, mem := [(0, 0xA0)] }) flags = [0x34, 1, 0, 0] := by decide
theorem test_shr_to_zero : look (onBase { base with a := 1, mem := [(0, 0xA0)] }) flags = [0, 1, 1, 0] := by decide

/-! ### Loads and stores: section 2.4 -/

theorem test_lda : look (onBase { base with carry := true, zero := true, mem := [(0, 0x1E), (14, 0x90)] }) flags
    = [0x90, 1, 1, 0] := by decide
theorem test_sta : look (onBase { base with a := 0x2A, mem := [(0, 0x4D)] })
    (fun t => [(t.engine.mem.read 13).toNat, t.engine.mar.toNat]) = [0x2A, 13] := by decide
theorem test_sta_over_itself : look (onBase { base with a := 0x99, pc := 4, mem := [(4, 0x44)] })
    (fun t => [(t.engine.mem.read 4).toNat, t.engine.pc.toNat, t.engine.irB.toNat]) = [0x99, 5, 4] := by decide
theorem test_ldi_keeps_flags : look (onBase { base with a := 0xFF, zero := true, mem := [(0, 0x50)] }) flags
    = [0, 0, 1, 0] := by decide
theorem test_ldi_at_the_last_address : look (onBase { base with pc := 15, mem := [(15, 0x51)] }) pcA = [0, 1, 1] := by
  decide

/-! ### Control transfer: section 2.5 -/

theorem test_jmp : look (onBase { base with pc := 13, mem := [(13, 0x64)] }) pcA = [4, 0, 1] := by decide
theorem test_jc_taken : look (onBase { base with pc := 6, carry := true, mem := [(6, 0x70)] }) pcA = [0, 0, 1] := by decide
theorem test_jc_reads_the_latched_carry :
    look (onBase { base with a := 255, b := 1, mem := [(0, 0x70)] }) pcA = [1, 255, 1] := by decide
theorem test_jz_taken : look (onBase { base with pc := 6, zero := true, mem := [(6, 0x88)] }) pcA = [8, 0, 1] := by decide
theorem test_jz_not_taken : look (onBase { base with pc := 6, mem := [(6, 0x88)] }) pcA = [7, 0, 1] := by decide
theorem test_cal : look (onExt { ext with pc := 3, mem := [(3, 0x1210)] }) (stack 0xF0) = [0x10, 1, 4] := by decide
theorem test_cal_overflow_wraps :
    look (onExt { ext with pc := 0x30, sp := slot 15, mem := [(0x30, 0x1210)] }) (stack 0xFF) = [0x10, 0, 0x31] := by decide
theorem test_ret_largest_good :
    look (onExt { ext with pc := 3, sp := slot 1, mem := [(3, 0x1300), (0xF0, 0x00FF)] }) (stack 0xF0) = [0xFF, 0, 0xFF] := by
  decide
theorem test_ret_smallest_bad :
    look (onExt { ext with pc := 3, sp := slot 1, mem := [(3, 0x1300), (0xF0, 0x0100)] })
      (fun t => stopped t ++ [t.engine.sp.val]) = [4, 4, 1, 3, 1] := by decide

/-! ### The stack: section 2.6 -/

theorem test_psh : look (onExt { ext with a := 0x1234, mem := [(0, 0x1000)] }) (stack 0xF0) = [1, 1, 0x1234] := by decide
theorem test_psh_wraps : look (onExt { ext with a := 7, sp := slot 15, mem := [(0, 0x1000)] }) (stack 0xFF) = [1, 0, 7] := by
  decide
theorem test_pop : look (onExt { ext with sp := slot 1, mem := [(0, 0x1100), (0xF0, 5)] })
    (fun t => t.engine.a.toNat :: stack 0xF0 t) = [5, 1, 0, 5] := by decide
theorem test_pop_wraps : look (onExt { ext with mem := [(0, 0x1100), (0xFF, 9)] })
    (fun t => t.engine.a.toNat :: stack 0xFF t) = [9, 1, 15, 9] := by decide
theorem test_lsp : look (onExt { ext with a := 0xFFFF, mem := [(0, 0x1400)] }) (stack 0) = [1, 15, 0x1400] := by decide
theorem test_lsp_modulo : look (onExt { ext with a := 0x13, mem := [(0, 0x1400)] }) (stack 0) = [1, 3, 0x1400] := by decide
theorem test_config_admission : (Config.ofParameters .ext 0xF0 16).isSome = true ∧ (Config.ofParameters .ext 0xF0 17).isSome = false
    ∧ (Config.ofParameters .ext 0 256).isSome = true ∧ (Config.ofParameters .ext 0x10 0).isSome = false := by decide

/-! ### Input and output: section 2.7 -/

theorem test_out_emits_again : look (onBase { base with a := 5, out := 5, mem := [(0, 0xE0)] })
    (fun t => [t.engine.out.toNat, t.engine.events.length]) = [5, 1] := by decide
theorem test_out : look (onBase { base with a := 233, mem := [(0, 0xE0)] })
    (fun t => [t.engine.out.toNat, t.engine.a.toNat]) = [233, 233] := by decide
theorem test_key : look (onBase { base with key := 0x87, mem := [(0, 0xB0)] })
    (fun t => [t.engine.a.toNat, t.engine.key.toNat]) = [0x87, 0x87] := by decide
theorem test_key_ext : look (onExt { ext with a := 0xFFFF, key := 0x8D, mem := [(0, 0x0B00)] }) pcA = [1, 0x8D, 1] := by
  decide
theorem test_dsd : look (onExt { ext with a := 0x48, mem := [(0, 0x1500)] })
    (fun t => [t.engine.dispData.toNat, t.engine.dispCtrl.toNat, t.engine.events.length]) = [0x48, 0, 1] := by decide
theorem test_dsc : look (onExt { ext with a := 1, mem := [(0, 0x1600)] })
    (fun t => [t.engine.dispData.toNat, t.engine.dispCtrl.toNat, t.engine.events.length]) = [0, 1, 1] := by decide
theorem test_key_codes : (VirtualKey.digit 7).keyCode = 0x87 ∧ VirtualKey.add.keyCode = 0x8A
    ∧ VirtualKey.divide.keyCode = 0x8D ∧ VirtualKey.idle.keyCode = 0 := by decide

/-! ### System and faults: sections 2.8 and 2.9 -/

theorem test_nop : look (onBase { base with pc := 3 }) (fun t => pcA t ++ [t.engine.mar.toNat]) = [4, 0, 1, 3] := by decide
theorem test_hlt : look (onBase { base with pc := 10, mem := [(10, 0xF0)] }) stopped = [11, 1, 1, 0] := by decide
theorem test_hlt_ext : look (onExt { ext with pc := 0xFF, mem := [(0xFF, 0x0F00)] }) stopped = [0, 1, 1, 0] := by decide
theorem test_invalid_opcode : look (onBase { base with pc := 1, a := 3, mem := [(1, 0xC7)] })
    (fun t => stopped t ++ [t.engine.irA.toNat, t.engine.irB.toNat, t.engine.a.toNat]) = [2, 4, 1, 1, 0xC, 7, 3] := by
  decide
theorem test_contention_k1 : (applyWord [.ao, .ro, .ai] base).fault
    = .busOrJumpContentionInvariant [.ro, .ao, .ai] .k1 := by decide
theorem test_reset_after_fault :
    let faulted : Engine Config.extDefault :=
      { ext with
        pc := 4, sp := slot 1, microstep := .t4, halted := true, fault := .addressOutOfRange 0x1FE
        mem := [(0xF0, 0x1FE)] }
    let s := (onExt faulted).applyReset
    (stopped s, s.engine.sp.val, (s.engine.mem.read 0xF0).toNat) = ([0, 1, 0, 0], 0, 0x1FE) := by decide

/-! ### The host: sections 1 (S13) and 2.10 -/

theorem test_images : ((State.construct Config.baseDefault [[(3, 0x1FF)], [(3, 0x42), (5, 7)]]).map fun s =>
    [(s.engine.mem.read 3).toNat, (s.engine.mem.read 5).toNat, (s.engine.mem.read 4).toNat]) = some [0x42, 7, 0] := by
  decide
theorem test_image_refused : (State.construct Config.baseDefault [[(16, 1)]]).isNone = true
    ∧ (State.construct Config.baseDefault [[(15, 1)]]).isNone = false := by decide

/-- The pulses and the accumulator of `advance` at 10 Hz. -/
def due10 (acc elapsed : Rat) : Nat × Rat :=
  ((Clock.due elapsed { targetHz := 10, acc := acc }).1, (Clock.due elapsed { targetHz := 10, acc := acc }).2.acc)

theorem test_advance_quarter : due10 0 (1 / 4) = (2, 1 / 2) := by decide +kernel
theorem test_advance_rest : due10 (1 / 2) (1 / 20) = (1, 0) := by decide +kernel
theorem test_advance_third : due10 0 (33 / 100) = (3, 3 / 10) := by decide +kernel
theorem test_halt_drops_the_rest : runPulses 10 ({ base with mem := [(0, 0xF0)] } : Engine _)
    = (pulses 4 { base with mem := [(0, 0xF0)] }, 4) := by
  decide

/-! ### Witnesses: states and operands that meet the hypotheses of each statement, clause by clause

`OperandFieldOfKindNoneIsIgnored`, the instruction statements, `StoresChangeOnlyTheirWord` and
`OnlyArithmeticAndShiftsWriteFlags` ask of the state what the first group shows. -/

/-- `TableRow`, `DecodeAfterEncodeIsIdentity`: the least and the largest operand of each variant. -/
theorem witness_encodable : WellFormed .base (.sta 0) = true ∧ WellFormed .base (.sta 15) = true
    ∧ WellFormed .ext (.cal 0) = true ∧ WellFormed .ext (.cal 255) = true := by decide

theorem witness_running_base : base.halted = false ∧ Opcode.existsIn .key Config.baseDefault.variant = true
    ∧ (descriptor .key).operandKind = .none ∧ (descriptor .key).flagAffecting = false
    ∧ Memory.wf Config.baseDefault.memSize (onBase { base with mem := [(0, 0x4D), (15, 1)] }).engine.mem = true := by decide

theorem witness_running_ext : ext.halted = false ∧ Config.extDefault.variant = .ext
    ∧ Opcode.existsIn .psh Config.extDefault.variant = true ∧ (descriptor .psh).operandKind = .none
    ∧ (descriptor .psh).flagAffecting = false := by decide

/-- The second clause of `CompletesAs`, and `StepRunsTheDecodedInstruction`, in both variants. -/
theorem witness_fetched_base : (onBase { base with mem := [(0, 0x2F)] }).engine.AtBoundary
    ∧ WellFormed .base (.add 15) = true ∧ (onBase { base with mem := [(0, 0x2F)] }).fetchWord = encode .base (.add 15)
    ∧ decode .base (onBase { base with mem := [(0, 0x2F)] }).fetchWord = .ok (.add 15) :=
  ⟨⟨rfl, rfl⟩, by decide, rfl, rfl⟩

theorem witness_fetched_ext : (onExt { ext with mem := [(0, 0x12FF)] }).engine.AtBoundary
    ∧ WellFormed .ext (.cal 255) = true ∧ (onExt { ext with mem := [(0, 0x12FF)] }).fetchWord = encode .ext (.cal 255)
    ∧ decode .ext (onExt { ext with mem := [(0, 0x12FF)] }).fetchWord = .ok (.cal 255) :=
  ⟨⟨rfl, rfl⟩, by decide, rfl, rfl⟩

/-- `AddAddsTheNamedWord`, `SubSubtractsTheNamedWord`: a word at the named address, here the last of BASE. -/
theorem witness_named_word : (7 : BitVec 8)
    = (onBase { base with mem := [(15, 7)] }).engine.mem.read (operandOn Config.baseDefault 15).toNat := rfl

/-- `RetPopsPcOrFaults`: the largest word the first clause takes and the smallest the second takes. -/
theorem witness_ret_word (v : BitVec 16) : v = (onExt { ext with sp := slot 1, mem := [(0xF0, v)] }).engine.mem.read
      (Config.extDefault.stackBase + (spDown Config.extDefault (slot 1)).val)
    ∧ (0x00FF#16).toNat < Config.extDefault.memSize ∧ Config.extDefault.memSize ≤ (0x0100#16).toNat :=
  ⟨rfl, by decide, by decide⟩

/-- `LspLoadsSpModuloCapacity`. -/
theorem witness_lsp : (slot 15).val = (onExt { ext with a := 0xFFFF }).engine.a.toNat % Config.extDefault.stackCap := by
  decide

/-- `EncodeAfterDecodeIsIdentity`, `ExtOnlyInstructionsDoNotExistInBase` (both clauses),
`InvalidOpcodesAreExactlyTheListed` (third clause, at the ends of the invalid ranges). -/
theorem witness_decoding : decode .ext 0x16FF#16 = .ok (.dsc 255) ∧ decode .base 0xFF#8 = .ok (.hlt 15)
    ∧ (onBase base).cfg.variant = .base ∧ Opcode.existsIn (Instr.opcode (.psh 0)) .base = false
    ∧ decode .base 0xC0#8 = .error (.invalidOpcode 0xC) ∧ decode .base 0xDF#8 = .error (.invalidOpcode 0xD)
    ∧ decode .ext 0x0C00#16 = .error (.invalidOpcode 0xC) ∧ decode .ext 0x0DFF#16 = .error (.invalidOpcode 0xD)
    ∧ decode .ext 0x1700#16 = .error (.invalidOpcode 0x17) ∧ decode .ext 0xFFFF#16 = .error (.invalidOpcode 0xFF) := by
  decide

/-- `InstructionTakesItsCycleCount`, first clause: JMP. -/
theorem witness_cycles : ({ base with mem := [(0, 0x64)] } : Engine _).AtBoundary
    ∧ opcodeOf .base (opcodeField .base 0x64#8) = some .jmp
    ∧ (pulses (descriptor .jmp).cycles { base with mem := [(0, 0x64)] }).fault = .none :=
  ⟨⟨rfl, rfl⟩, by decide, by decide⟩

/-- `InstructionTakesItsCycleCount`, second clause: HLT. -/
theorem witness_cycles_hlt : ({ base with mem := [(0, 0xF0)] } : Engine _).AtBoundary
    ∧ opcodeOf .base (opcodeField .base 0xF0#8) = some .hlt := ⟨⟨rfl, rfl⟩, by decide⟩

/-- An engine inside an ADD, whose memory lists words. -/
def midAdd : Engine Config.baseDefault :=
  { base with pc := 1, mar := 15, irA := 2, irB := 15, microstep := .t5, a := 250, mem := [(0, 0x2F), (15, 10)] }

/-- The invariants of `PulseKeepsInvariant`, `StepKeepsInvariant`, `HostCallsKeepInvariant` and
`AdvanceInTwoPartsIsOneAdvance`, in a state other than reset. -/
theorem witness_inv : ({ onBase midAdd with clock := { targetHz := 10, acc := 1 / 2 } } : State).Inv :=
  ⟨⟨by decide, fun h => absurd rfl h, by decide, fun _ => by decide⟩, by unfold Clock.Inv; norm_num⟩

/-- `StepKeepsInvariant`: that step answers a next state. -/
theorem witness_step_next : look (onBase midAdd) flags = [4, 1, 0, 10] := by decide

/-- `AdvanceInTwoPartsIsOneAdvance`, `HaltedEngineIsInert`: times that are not refused; the last clause of the former. -/
theorem witness_advance : (0 : Rat) ≤ 0 ∧ (0 : Rat) ≤ 1 / 4
    ∧ ((onBase base).afterCalls [.advance 0]).engine.halted = false ∧ (onBase { base with halted := true }).engine.halted = true
    ∧ Opcode.existsIn .out (onBase { base with halted := true }).cfg.variant = true := by
  decide +kernel

/-- `AdvanceRunsThePulsesDue`: a refused time, and 2 pulses and a half due. -/
theorem witness_due : (-1 : Rat) < 0 ∧ (2 + 1 / 2 : Rat) = 0 + 1 / 4 * 10 ∧ (2 : Nat) = (2 + 1 / 2 : Rat).floor.toNat := by
  decide +kernel

/-- `ConfigureAndTick`: a refused frequency and an accepted one. -/
theorem witness_configure : (0 : Rat) ≤ 0 ∧ (0 : Rat) < 1 / 1000 := by decide +kernel

/-- `FaultingPulseWritesNothingElse`: a pulse and a control word that raise a fault. -/
theorem witness_faults : (pulse { base with irA := 0xC, microstep := .t4 }).fault ≠ base.fault
    ∧ (applyWord [.ao, .ro, .ai] base).fault ≠ base.fault := by decide

/-- `InvalidOpcodeFaultsAtItsFourthPulse`: its first clause at microsteps 4 and 7, its second in both variants. -/
theorem witness_invalid_pulse : 4 ≤ Microstep.t4.number ∧ 4 ≤ Microstep.t7.number ∧ opcodeOf .base 0xC#4 = none
    ∧ (onBase { base with mem := [(0, 0xD0)] }).fetchWord.toNat / 16 = 0xD
    ∧ 0x17 ≤ (onExt { ext with mem := [(0, 0x1700)] }).fetchWord.toNat / 256 := by decide

theorem witness_invalid_boundary : (onBase { base with mem := [(0, 0xD0)] }).engine.AtBoundary
    ∧ (onExt { ext with mem := [(0, 0x1700)] }).engine.AtBoundary := ⟨⟨rfl, rfl⟩, ⟨rfl, rfl⟩⟩

/-- `TableWordsPassEveryCheck`: at the last microstep of an ADD. -/
theorem witness_table_word : (3 ≤ Microstep.t6.number → Microstep.t6.number ≤ lastMicrostep .base 2#4)
    ∧ ({ midAdd with microstep := .t6 } : Engine _).fault ≠ .busOrJumpContentionInvariant [] .k1 := by decide

/-- `TwoBusDriversAreContention`. -/
theorem witness_two_drivers : Signal.ao ∈ drivers ∧ Signal.ro ∈ drivers ∧ Signal.ao ≠ Signal.ro
    ∧ Signal.ao ∈ ([.ao, .ro, .ai] : ControlWord) ∧ Signal.ro ∈ ([.ao, .ro, .ai] : ControlWord) := by decide

/-- `FaultsFollowThePriorityOrder`, second clause: the first check, one between, and the last. -/
theorem witness_first_check : checkFails [.ao, .ro] base .k1 = true
    ∧ (∀ j ∈ [Check.k1, .k2], checkFails [.ai] base j = false) ∧ checkFails [.ai] base .k3 = true
    ∧ (∀ j ∈ [Check.k1, .k2, .k3, .k4, .k5, .k6, .k7, .k8], checkFails [] { base with microstep := .t7 } j = false)
    ∧ checkFails [] { base with microstep := .t7 } .k9 = true := by decide

/-- `FaultsFollowThePriorityOrder`, third clause, at the smallest bad address, and its last clause. -/
theorem witness_bad_address : (∀ j, checkFails [.ao, .mi] { ext with a := 0x100 } j = false)
    ∧ busValue [.ao, .mi] { ext with a := 0x100 } = some 0x100 ∧ Signal.mi ∈ ([.ao, .mi] : ControlWord)
    ∧ Config.extDefault.memSize ≤ (0x100#16).toNat := ⟨fun j => by cases j <;> decide, rfl, by decide, by decide⟩

/-- `ControlWordIsASet`: two lists of one set. -/
theorem witness_set : ∀ x : Signal, x ∈ ([.ro, .ai] : ControlWord) ↔ x ∈ ([.ai, .ro, .ai] : ControlWord) := by
  intro x; cases x <;> decide

/-- `AddressOutOfRangeOnlyFromRet`: a RET at microstep 4 that pops the smallest bad word. -/
theorem witness_out_of_range : ext.fault ≠ .addressOutOfRange 0x100
    ∧ (pulse { ext with irA := 0x13, microstep := .t4, sp := slot 1, mem := [(0xF0, 0x100)] }).fault
      = .addressOutOfRange 0x100 := by decide

/-- `OnlyItsSignalsWriteAField`: one word that writes none of the fields but B and the microstep, one that writes B alone
not. -/
theorem witness_no_writer : (∀ x ∈ [Signal.ce, .ju, .jcy, .jzr, .mi, .ii, .oi, .di, .dc] ++ aWriters ++ flagWriters
      ++ spWriters ++ memWriters, x ∉ ([.ro, .bi] : ControlWord)) ∧ Signal.bi ∉ ([.ro, .ai] : ControlWord) := by decide

/-- `FlagsAreLatchedByFi`, both clauses. -/
theorem witness_fi : Signal.fi ∈ ([.eo, .ai, .fi, .orst] : ControlWord) ∧ midAdd.fault = .none
    ∧ (applyWord [.eo, .ai, .fi, .orst] midAdd).fault = .none
    ∧ Signal.fi ∉ ([.ro, .ai] : ControlWord) ∧ Signal.sl ∉ ([.ro, .ai] : ControlWord)
    ∧ Signal.sr ∉ ([.ro, .ai] : ControlWord) := by decide

/-- `CallThenReturnComesBack`: CAL 0x10 at 3 and RET at 0x10 (spec/95_test_vectors.md S9). -/
def callReturn : State := onExt { ext with pc := 3, mem := [(3, 0x1210), (0x10, 0x1300)] }

theorem witness_call_return : callReturn.engine.AtBoundary ∧ Memory.wf 256 callReturn.engine.mem = true
    ∧ decode .ext callReturn.fetchWord = .ok (.cal 0x10)
    ∧ decode .ext ((Memory.write callReturn.engine.mem (stackAddr callReturn.cfg callReturn.engine.sp)
      (onBus callReturn.cfg (callReturn.engine.pc + 1))).read (operandOn callReturn.cfg 0x10).toNat) = .ok (.ret 0) :=
  ⟨⟨rfl, rfl⟩, by decide, by decide, by decide⟩

/-- `StoredWordIsTheNextInstruction`: STA 5 at 4 with A = 0x77 (spec/95_test_vectors.md section 2.4). -/
def storeNext : State := onBase { base with pc := 4, a := 0x77, mem := [(4, 0x45)] }

theorem witness_store_next : storeNext.engine.AtBoundary ∧ Memory.wf 16 storeNext.engine.mem = true
    ∧ decode .base storeNext.fetchWord = .ok (.sta 5) ∧ operandOn storeNext.cfg 5 = storeNext.engine.pc + 1
    ∧ decode .base storeNext.engine.a = .ok (.jc 7) := ⟨⟨rfl, rfl⟩, by decide, by decide, by decide, by decide⟩

/-- `ConstructionLoadsImages`: the smallest refused address and the largest accepted. -/
theorem witness_images : (∃ image ∈ ([[(16, 1)]] : List Image), ∃ entry ∈ image, Config.baseDefault.memSize ≤ entry.1)
    ∧ ∀ image ∈ ([[(15, 1)]] : List Image), ∀ entry ∈ image, entry.1 < Config.baseDefault.memSize := by decide

/-- `KeyIsReadOnlyThroughKo`: a word without KO; an engine outside KEY, and one inside it but not at microstep 4. -/
theorem witness_no_ko : Signal.ko ∉ ([.ro, .ai] : ControlWord) ∧ opcodeOf .base midAdd.irA ≠ some .key
    ∧ ({ midAdd with irA := 0xB, microstep := .t3 } : Engine Config.baseDefault).microstep ≠ .t4 := by decide

end Sys2Proof.Tests
end

section
/-! PROOF. O21: a control word acts as the set of its signals (spec/00_scope.md R11, spec/40_pulse_engine.md R103). The model
reads a word through `ControlWord.has` alone, so every part of a pulse (its checks, its bus, its writes) is the same for two
words with one membership test. -/

namespace Sys2Proof.Machine

theorem has_eq_of_mem_iff {cw cw' : ControlWord} (same : ∀ x : Signal, x ∈ cw ↔ x ∈ cw') : cw.has = cw'.has := by
  funext x
  rw [Bool.eq_iff_iff, has_iff_mem, has_iff_mem]
  exact same x

section SameSignals

variable {c : Config} {cw cw' : ControlWord} (same : cw.has = cw'.has)
include same

/-! ### What a word says by itself -/

theorem asSet_congr : cw.asSet = cw'.asSet := by
  simp only [ControlWord.asSet, same]

theorem count_congr (signals : List Signal) : cw.count signals = cw'.count signals := by
  simp only [ControlWord.count, same]

/-! ### What it reads from the state at the start of the pulse -/

theorem liveAlu_congr (e : Engine c) : liveAlu cw e = liveAlu cw' e := by
  simp only [liveAlu, same]

theorem busValue_congr (e : Engine c) : busValue cw e = busValue cw' e := by
  simp only [busValue, same, liveAlu_congr same]

theorem nload_congr (e : Engine c) : nload cw e = nload cw' e := by
  simp only [nload, same]

/-! ### Its faults -/

theorem checkFails_congr (e : Engine c) (k : Check) : checkFails cw e k = checkFails cw' e k := by
  cases k <;> simp only [checkFails, same, count_congr same, nload_congr same]

theorem firstFailedCheck_congr (e : Engine c) : firstFailedCheck cw e = firstFailedCheck cw' e := by
  have checks : checkFails cw e = checkFails cw' e := funext (checkFails_congr same e)
  simp only [firstFailedCheck, checks]

theorem addressFault_congr (e : Engine c) (bus : BitVec c.wordWidth) :
    addressFault cw e bus = addressFault cw' e bus := by
  simp only [addressFault, same, nload_congr same]

/-! ### Its writes -/

theorem nextPc_congr (e : Engine c) (bus : BitVec c.wordWidth) : nextPc cw e bus = nextPc cw' e bus := by
  simp only [nextPc, same, nload_congr same]

theorem nextA_congr (e : Engine c) (bus : BitVec c.wordWidth) : nextA cw e bus = nextA cw' e bus := by
  simp only [nextA, same]

theorem nextCarry_congr (e : Engine c) : nextCarry cw e = nextCarry cw' e := by
  simp only [nextCarry, same, liveAlu_congr same]

theorem nextZero_congr (e : Engine c) : nextZero cw e = nextZero cw' e := by
  simp only [nextZero, same, liveAlu_congr same]

theorem nextSp_congr (e : Engine c) (bus : BitVec c.wordWidth) : nextSp cw e bus = nextSp cw' e bus := by
  simp only [nextSp, same]

theorem nextMem_congr (e : Engine c) (bus : BitVec c.wordWidth) : nextMem cw e bus = nextMem cw' e bus := by
  simp only [nextMem, same]

theorem emitted_congr (bus : BitVec c.wordWidth) : emitted cw bus = emitted cw' bus := by
  simp only [emitted, same]

theorem writeBack_congr (e : Engine c) (bus : BitVec c.wordWidth) : writeBack cw bus e = writeBack cw' bus e := by
  simp only [writeBack, same, nextPc_congr same, nextA_congr same, nextCarry_congr same, nextZero_congr same,
    nextSp_congr same, nextMem_congr same, emitted_congr same]

/-! ### The whole pulse -/

theorem applyWord_congr (e : Engine c) : applyWord cw e = applyWord cw' e := by
  simp only [applyWord, firstFailedCheck_congr same, asSet_congr same, busValue_congr same, addressFault_congr same,
    writeBack_congr same]

end SameSignals

/-- Settles O21: words with the same signals have one membership test, and a pulse reads a word through it alone. -/
theorem controlWordIsASet : Obligations.ControlWordIsASet := by
  intro c e cw cw' sameSignals
  exact applyWord_congr (has_eq_of_mem_iff sameSignals) e

end Sys2Proof.Machine
end

section
/-! PROOF. O23: what a control word leaves unchanged (spec/10_state.md R20, column "written by"). A pulse that faults writes
none of these fields, so each clause is about the write-back of R120 step 5 alone (`applyWord_keeps`), one lemma a field whose
next value has more than one writer. -/

namespace Sys2Proof.Machine

variable {c : Config} {cw : ControlWord}

/-- A quantity that neither fault entry nor the write-back changes is kept by the control word. -/
theorem applyWord_keeps {α : Type} (field : Engine c → α) {e : Engine c} (raised : ∀ f, field (e.raise f) = field e)
    (written : ∀ bus, field (writeBack cw bus e) = field e) : field (applyWord cw e) = field e := by
  obtain ⟨f, -, h⟩ | ⟨-, -, h⟩ := applyWord_cases cw e
  · rw [h, raised]
  · rw [h, written]

theorem nload_eq_zero (hju : .ju ∉ cw) (hjcy : .jcy ∉ cw) (hjzr : .jzr ∉ cw) (e : Engine c) : nload cw e = 0 := by
  rw [← has_eq_false] at hju hjcy hjzr
  simp [nload, hju, hjcy, hjzr]

theorem nextPc_unwritten (h : ∀ x ∈ [Signal.ce, .ju, .jcy, .jzr], x ∉ cw) (e : Engine c) (bus : BitVec c.wordWidth) :
    nextPc cw e bus = e.pc := by
  have noLoad : nload cw e = 0 :=
    nload_eq_zero (h .ju (by decide)) (h .jcy (by decide)) (h .jzr (by decide)) e
  have noCe := (has_eq_false cw .ce).mpr (h .ce (by decide))
  simp [nextPc, noLoad, noCe]

theorem nextA_unwritten (h : ∀ x ∈ aWriters, x ∉ cw) (e : Engine c) (bus : BitVec c.wordWidth) :
    nextA cw e bus = e.a := by
  simp only [← has_eq_false] at h
  simp [nextA, h .ai (by decide), h .sl (by decide), h .sr (by decide)]

theorem nextCarry_unwritten (h : ∀ x ∈ flagWriters, x ∉ cw) (e : Engine c) : nextCarry cw e = e.carry := by
  simp only [← has_eq_false] at h
  simp [nextCarry, h .fi (by decide), h .sl (by decide), h .sr (by decide)]

theorem nextZero_unwritten (h : ∀ x ∈ flagWriters, x ∉ cw) (e : Engine c) : nextZero cw e = e.zero := by
  simp only [← has_eq_false] at h
  simp [nextZero, h .fi (by decide), h .sl (by decide), h .sr (by decide)]

theorem nextSp_unwritten (h : ∀ x ∈ spWriters, x ∉ cw) (e : Engine c) (bus : BitVec c.wordWidth) :
    nextSp cw e bus = e.sp := by
  simp only [← has_eq_false] at h
  simp [nextSp, h .spu (by decide), h .spo (by decide), h .spl (by decide)]

theorem nextMem_unwritten (h : ∀ x ∈ memWriters, x ∉ cw) (e : Engine c) (bus : BitVec c.wordWidth) :
    nextMem cw e bus = e.mem := by
  simp only [← has_eq_false] at h
  simp [nextMem, h .spu (by decide), h .ri (by decide)]

theorem applyWord_key (cw : ControlWord) (e : Engine c) : (applyWord cw e).key = e.key :=
  applyWord_keeps _ (by simp) (by simp)

theorem applyWord_sp_unwritten (h : ∀ x ∈ spWriters, x ∉ cw) (e : Engine c) : (applyWord cw e).sp = e.sp :=
  applyWord_keeps _ (by simp) (by simp [nextSp_unwritten h])

theorem applyWord_dispData_unwritten (h : .di ∉ cw) (e : Engine c) : (applyWord cw e).dispData = e.dispData :=
  applyWord_keeps _ (by simp) (by simp [(has_eq_false cw .di).mpr h])

theorem applyWord_dispCtrl_unwritten (h : .dc ∉ cw) (e : Engine c) : (applyWord cw e).dispCtrl = e.dispCtrl :=
  applyWord_keeps _ (by simp) (by simp [(has_eq_false cw .dc).mpr h])

/-- Settles O23: each field's next value without its writers is its value, and a fault writes none of them. -/
theorem onlyItsSignalsWriteAField : Obligations.OnlyItsSignalsWriteAField := by
  intro c e cw
  refine ⟨fun h => ?pc, fun h => ?mar, fun h => ⟨?irA, ?irB⟩, fun h => ?a, fun h => ?b, fun h => ?out,
    fun h => ⟨?carry, ?zero⟩, fun h => applyWord_sp_unwritten h e, fun h => applyWord_dispData_unwritten h e,
    fun h => applyWord_dispCtrl_unwritten h e, fun h => ?mem, applyWord_key cw e⟩
  case pc => exact applyWord_keeps _ (by simp) (by simp [nextPc_unwritten h])
  case mar => exact applyWord_keeps _ (by simp) (by simp [(has_eq_false cw .mi).mpr h])
  case irA => exact applyWord_keeps _ (by simp) (by simp [(has_eq_false cw .ii).mpr h])
  case irB => exact applyWord_keeps _ (by simp) (by simp [(has_eq_false cw .ii).mpr h])
  case a => exact applyWord_keeps _ (by simp) (by simp [nextA_unwritten h])
  case b => exact applyWord_keeps _ (by simp) (by simp [(has_eq_false cw .bi).mpr h])
  case out => exact applyWord_keeps _ (by simp) (by simp [(has_eq_false cw .oi).mpr h])
  case carry => exact applyWord_keeps _ (by simp) (by simp [nextCarry_unwritten h])
  case zero => exact applyWord_keeps _ (by simp) (by simp [nextZero_unwritten h])
  case mem => exact applyWord_keeps _ (by simp) (by simp [nextMem_unwritten h])

end Sys2Proof.Machine
end

section
/-! PROOF. O27: the stack pointer counts circularly over [0, STACK_CAP) (spec/10_state.md R28, spec/40_pulse_engine.md R116).
The remainders of the model are read as a case split first; that each direction undoes the other follows from the two. -/

namespace Sys2Proof.Machine

variable {c : Config}

theorem spUp_val (sp : Fin c.stackCap) : (spUp c sp).val = if sp.val = c.stackCap - 1 then 0 else sp.val + 1 := by
  have hsp := sp.isLt
  show (sp.val + 1) % c.stackCap = _
  split
  case isTrue last => rw [show sp.val + 1 = c.stackCap by omega, Nat.mod_self]
  case isFalse inner => exact Nat.mod_eq_of_lt (by omega)

theorem spDown_val (sp : Fin c.stackCap) : (spDown c sp).val = if sp.val = 0 then c.stackCap - 1 else sp.val - 1 := by
  have hsp := sp.isLt
  show (sp.val + c.stackCap - 1) % c.stackCap = _
  split
  case isTrue first => rw [first, Nat.zero_add]; exact Nat.mod_eq_of_lt (by omega)
  case isFalse inner =>
    rw [show sp.val + c.stackCap - 1 = sp.val - 1 + c.stackCap by omega, Nat.add_mod_right]
    exact Nat.mod_eq_of_lt (by omega)

theorem spDown_spUp (sp : Fin c.stackCap) : spDown c (spUp c sp) = sp := by
  apply Fin.ext
  by_cases last : sp.val = c.stackCap - 1
  · rw [spDown_val, spUp_val, if_pos last, if_pos rfl, last]
  · rw [spDown_val, spUp_val, if_neg last, if_neg (Nat.succ_ne_zero _), Nat.add_sub_cancel]

theorem spUp_spDown (sp : Fin c.stackCap) : spUp c (spDown c sp) = sp := by
  have hsp := sp.isLt
  apply Fin.ext
  by_cases first : sp.val = 0
  · rw [spUp_val, spDown_val, if_pos first, if_pos rfl, first]
  · rw [spUp_val, spDown_val, if_neg first, if_neg (by omega), Nat.sub_add_cancel (Nat.pos_of_ne_zero first)]

/-- Settles O27, from the two case splits; the load is the remainder by definition. -/
theorem stackPointerIsCircular : Obligations.StackPointerIsCircular :=
  fun _ sp _ => ⟨spUp_val sp, spDown_val sp, spDown_spUp sp, spUp_spDown sp, rfl⟩

end Sys2Proof.Machine
end

section
/-! PROOF. Support for O59 and O10: which signals the control words of the table hold, and where (spec/30_encoding.md R88,
spec/40_pulse_engine.md R110). Each fact is looked up in the 21 rows of the descriptor table once. -/

namespace Sys2Proof.Machine

variable {v : Variant} {irA : BitVec v.halfWidth} {k : Microstep}

/-- A signal of an execute word stands in a word of the opcode's row. -/
theorem exists_mem_execWords {op : Opcode} {x : Signal} (h : x ∈ execWord op k) :
    ∃ cw ∈ (descriptor op).execWords, x ∈ cw := by
  unfold execWord at h
  cases hcw : (descriptor op).execWords[k.number - 4]? with
  | none => simp [hcw] at h
  | some cw => exact ⟨cw, List.mem_of_getElem? hcw, by simpa [hcw] using h⟩

theorem controlWord_of_execute (h4 : 4 ≤ k.number) {op : Opcode} (hop : opcodeOf v irA = some op) :
    controlWord v irA k = execWord op k := by
  cases k with
  | t1 | t2 | t3 => simp [Microstep.number] at h4
  | t4 | t5 | t6 | t7 => simp [controlWord, hop]

/-- The signals that the three fetch microsteps use (spec/40_pulse_engine.md R110, R111). -/
def fetchSignals : List Signal := [.co, .mi, .ro, .ii, .ce, .orst]

/-- A signal that no fetch word holds comes from an execute word of the current opcode. -/
theorem mem_controlWord_execute {x : Signal} (hx : x ∉ fetchSignals) (h : x ∈ controlWord v irA k) :
    4 ≤ k.number ∧ ∃ op, opcodeOf v irA = some op ∧ x ∈ execWord op k := by
  simp only [fetchSignals, List.mem_cons, List.not_mem_nil, or_false, not_or] at hx
  obtain ⟨hco, hmi, hro, hii, hce, horst⟩ := hx
  cases k with
  | t1 => simp [controlWord, hco, hmi] at h
  | t2 => simp [controlWord, hro, hii] at h
  | t3 =>
    simp only [controlWord, thirdFetchWord] at h
    split at h
    · split at h <;> simp [hce, horst] at h
    · simp [hce] at h
  | t4 | t5 | t6 | t7 =>
    refine ⟨by decide, ?_⟩
    cases hop : opcodeOf v irA with
    | none => simp [controlWord, hop] at h
    | some op => exact ⟨op, rfl, by simpa [controlWord, hop] using h⟩

/-- IR is loaded in fetch microstep 2 and nowhere else. -/
theorem ii_notMem_controlWord (hk : k ≠ .t2) : .ii ∉ controlWord v irA k := by
  have table : ∀ op, ∀ cw ∈ (descriptor op).execWords, Signal.ii ∉ cw := by intro op; cases op <;> decide
  intro h
  cases k with
  | t1 => simp [controlWord] at h
  | t2 => exact hk rfl
  | t3 =>
    simp only [controlWord, thirdFetchWord] at h
    split at h
    · split at h <;> simp at h
    · simp at h
  | t4 | t5 | t6 | t7 =>
    cases hop : opcodeOf v irA with
    | none => simp [controlWord, hop] at h
    | some op =>
      obtain ⟨cw, hcw, hii⟩ := exists_mem_execWords (by simpa [controlWord, hop] using h)
      exact table op cw hcw hii

/-- KEY is put on the bus in microstep 4 of a KEY instruction and nowhere else. -/
theorem ko_mem_controlWord (h : .ko ∈ controlWord v irA k) : opcodeOf v irA = some .key ∧ k = .t4 := by
  have row : ∀ op, (∃ cw ∈ (descriptor op).execWords, Signal.ko ∈ cw) → op = .key := by
    intro op; cases op <;> decide
  obtain ⟨h4, op, hop, hko⟩ := mem_controlWord_execute (by decide) h
  obtain rfl := row op (exists_mem_execWords hko)
  refine ⟨hop, ?_⟩
  cases k with
  | t4 => rfl
  | t1 | t2 | t3 => simp [Microstep.number] at h4
  | t5 | t6 | t7 => simp [execWord, descriptor, Microstep.number] at hko

/-- The signals that write the stack pointer or a display register, which BASE keeps at their reset value. -/
def extOnlySignals : List Signal := spWriters ++ [.di, .dc]

/-- No BASE opcode uses them (spec/10_state.md R28, R37). -/
theorem extOnlySignals_notMem_controlWord (hv : v = .base) {x : Signal} (hx : x ∈ extOnlySignals) :
    x ∉ controlWord v irA k := by
  have notFetch : ∀ x ∈ extOnlySignals, x ∉ fetchSignals := by decide
  have table : ∀ op : Opcode, op.existsIn .base = true →
      ∀ cw ∈ (descriptor op).execWords, ∀ x ∈ extOnlySignals, x ∉ cw := by
    intro op; cases op <;> decide
  intro h
  obtain ⟨-, op, hop, hexec⟩ := mem_controlWord_execute (notFetch x hx) h
  obtain ⟨cw, hcw, hxcw⟩ := exists_mem_execWords hexec
  exact table op (hv ▸ (opcodeOf_some hop).2) cw hcw x hx hxcw

theorem three_le_lastMicrostep (v : Variant) (irA : BitVec v.halfWidth) : 3 ≤ lastMicrostep v irA := by
  have table : ∀ op, 3 ≤ (descriptor op).cycles := by intro op; cases op <;> decide
  unfold lastMicrostep
  split
  · exact table _
  · decide

/-- Every row of the table ends with ORST, at the microstep that is its cycle count. -/
theorem orst_of_last_execute {op : Opcode} (h4 : 4 ≤ k.number) (hk : k.number = (descriptor op).cycles) :
    .orst ∈ execWord op k := by
  have table : ∀ op, 4 ≤ (descriptor op).cycles →
      .orst ∈ ((descriptor op).execWords[(descriptor op).cycles - 4]?).getD [] := by intro op; cases op <;> decide
  rw [execWord, hk]
  exact table op (hk ▸ h4)

/-- From microstep 3 on, the control word of the last microstep holds ORST. -/
theorem orst_of_lastMicrostep (h3 : 3 ≤ k.number) (hlast : k.number = lastMicrostep v irA)
    (hvalid : 4 ≤ k.number → ∃ op, opcodeOf v irA = some op) : .orst ∈ controlWord v irA k := by
  by_cases h4 : 4 ≤ k.number
  · obtain ⟨op, hop⟩ := hvalid h4
    rw [controlWord_of_execute h4 hop]
    exact orst_of_last_execute h4 (by simpa [lastMicrostep, hop] using hlast)
  · obtain rfl : k = .t3 := by cases k <;> simp [Microstep.number] at h3 h4 ⊢
    cases hop : opcodeOf v irA with
    | none => simp [lastMicrostep, hop, Microstep.number] at hlast
    | some op =>
      have hcycles : (descriptor op).cycles = 3 := by simpa [lastMicrostep, hop, Microstep.number] using hlast.symm
      simp [controlWord, thirdFetchWord, hop, hcycles]

end Sys2Proof.Machine
end

section
/-! PROOF. O59: the core never writes KEY and reads it only through KO (spec/10_state.md R36, spec/45_io.md R195). Setting
KEY leaves every check and every write of a control word alone, and the bus value too where KO is absent; the table has KO in
one word. -/

namespace Sys2Proof.Machine

variable {c : Config}

theorem busValue_setKey {cw : ControlWord} (hko : .ko ∉ cw) (k : KeyCode) (e : Engine c) :
    busValue cw { e with key := k } = busValue cw e := by
  have noKo := (has_eq_false cw .ko).mpr hko
  simp only [busValue, noKo]
  rfl

/-- Setting KEY commutes with a control word that does not drive it onto the bus. -/
theorem applyWord_setKey {cw : ControlWord} (hko : .ko ∉ cw) (k : KeyCode) (e : Engine c) :
    applyWord cw { e with key := k } = { applyWord cw e with key := k } := by
  have checks : firstFailedCheck cw { e with key := k } = firstFailedCheck cw e := rfl
  have addresses : ∀ bus, addressFault cw { e with key := k } bus = addressFault cw e bus := fun _ => rfl
  simp only [applyWord, checks, addresses, busValue_setKey hko]
  cases firstFailedCheck cw e with
  | some check => rfl
  | none =>
    cases addressFault cw e ((busValue cw e).getD 0#c.wordWidth) with
    | some addr => rfl
    | none => rfl

theorem pulse_key (e : Engine c) : (pulse e).key = e.key := by
  obtain ⟨-, h⟩ | ⟨-, -, -, h⟩ | ⟨-, -, h⟩ := pulse_cases e
  · rw [h]
  · rw [h, raise_key]
  · rw [h, applyWord_key]

theorem invalidAtExecute_eq_false {e : Engine c}
    (hvalid : 4 ≤ e.microstep.number → ∃ op, opcodeOf c.variant e.irA = some op) : invalidAtExecute e = false := by
  unfold invalidAtExecute
  by_cases h4 : 4 ≤ e.microstep.number
  · obtain ⟨op, hop⟩ := hvalid h4
    simp [hop]
  · simp [h4]

/-- Setting KEY commutes with a pulse outside microstep 4 of a KEY instruction. -/
theorem pulse_setKey {e : Engine c} (hkey : opcodeOf c.variant e.irA ≠ some .key ∨ e.microstep ≠ .t4) (k : KeyCode) :
    pulse { e with key := k } = { pulse e with key := k } := by
  have noKo : .ko ∉ controlWord c.variant e.irA e.microstep := fun h =>
    hkey.elim (fun other => other (ko_mem_controlWord h).1) (fun other => other (ko_mem_controlWord h).2)
  obtain ⟨hh, h⟩ | ⟨hh, h4, hop, h⟩ | ⟨hh, hvalid, h⟩ := pulse_cases e
  · rw [h]
    exact pulse_halted hh
  · rw [h]
    exact pulse_invalid hh h4 hop
  · rw [h, ← applyWord_setKey noKo]
    exact pulse_running hh (invalidAtExecute_eq_false (e := { e with key := k }) hvalid)

/-- Settles O59: a control word writes KEY nowhere, and the table drives it onto the bus in one word alone. -/
theorem keyIsReadOnlyThroughKo : Obligations.KeyIsReadOnlyThroughKo :=
  fun _ e k cw => ⟨applyWord_key cw e, pulse_key e, fun hko => applyWord_setKey hko k e,
    fun hkey => pulse_setKey hkey k⟩

end Sys2Proof.Machine
end

section
/-! PROOF. O10 and O12: the invariant of the engine holds at the start and every pulse keeps it (spec/10_state.md R22, R28,
R37). Its memory and fault clauses survive any control word; its microstep clause rests on the ORST of each row's last word,
its BASE clause on the absence of the EXT-only signals there. -/

namespace Sys2Proof.Machine

variable {c : Config}

theorem nextMem_wf {e : Engine c} (h : Memory.wf c.memSize e.mem = true) (cw : ControlWord) (bus : BitVec c.wordWidth) :
    Memory.wf c.memSize (nextMem cw e bus) = true := by
  unfold nextMem
  split_ifs
  · exact write_wf h (stackAddr_lt c e.sp) bus
  · exact write_wf h (half_lt_memSize c e.mar) bus
  · exact h

theorem applyWord_mem_wf {e : Engine c} (h : Memory.wf c.memSize e.mem = true) (cw : ControlWord) :
    Memory.wf c.memSize (applyWord cw e).mem = true := by
  obtain ⟨f, -, hf⟩ | ⟨-, -, hw⟩ := applyWord_cases cw e
  · rwa [hf, raise_mem]
  · rw [hw, writeBack_mem]
    exact nextMem_wf h cw _

theorem applyWord_fault_halted {e : Engine c} (h : e.fault ≠ .none → e.halted = true) (cw : ControlWord) :
    (applyWord cw e).fault ≠ .none → (applyWord cw e).halted = true := by
  obtain ⟨f, -, hf⟩ | ⟨-, -, hw⟩ := applyWord_cases cw e
  · simp [hf]
  · simp only [hw, writeBack_fault, writeBack_halted, Bool.or_eq_true]
    exact fun hfault => .inr (h hfault)

/-- The microstep clause of `Engine.Inv`. -/
def Engine.MicrostepInRange (e : Engine c) : Prop :=
  3 ≤ e.microstep.number → e.microstep.number ≤ lastMicrostep c.variant e.irA

theorem succ_number_le (k : Microstep) : k.succ.number ≤ k.number + 1 := by cases k <;> decide

/-- The control word of the table at the current microstep moves it to one inside the cycle count: to 1 by ORST, else by one
step, which the last microstep never takes. -/
theorem writeBack_microstepInRange {e : Engine c} (h : e.MicrostepInRange)
    (hvalid : 4 ≤ e.microstep.number → ∃ op, opcodeOf c.variant e.irA = some op) (bus : BitVec c.wordWidth) :
    (writeBack (controlWord c.variant e.irA e.microstep) bus e).MicrostepInRange := by
  have hsucc := succ_number_le e.microstep
  unfold Engine.MicrostepInRange
  rw [writeBack_microstep]
  split
  case isTrue => simp [Microstep.number]
  case isFalse noOrst =>
    intro _
    by_cases h3 : 3 ≤ e.microstep.number
    · have notT2 : e.microstep ≠ .t2 := by intro hk; simp [hk, Microstep.number] at h3
      have noIi := (has_eq_false _ .ii).mpr (ii_notMem_controlWord (irA := e.irA) notT2)
      have notLast : e.microstep.number ≠ lastMicrostep c.variant e.irA := fun hlast =>
        noOrst ((has_iff_mem ..).mpr (orst_of_lastMicrostep h3 hlast hvalid))
      have inRange := h h3
      rw [writeBack_irA, noIi, if_neg (by decide)]
      omega
    · exact le_trans (by omega) (three_le_lastMicrostep ..)

theorem pulse_microstepInRange {e : Engine c} (h : e.MicrostepInRange) : (pulse e).MicrostepInRange := by
  obtain ⟨-, hp⟩ | ⟨-, -, -, hp⟩ | ⟨-, hvalid, hp⟩ := pulse_cases e
  · rwa [hp]
  · rw [hp]; exact h
  · rw [hp]
    obtain ⟨f, -, hf⟩ | ⟨-, -, hw⟩ := applyWord_cases (controlWord c.variant e.irA e.microstep) e
    · rw [hf]; exact h
    · rw [hw]; exact writeBack_microstepInRange h hvalid _

/-- In BASE no control word of the table writes the stack pointer or a display register. -/
theorem applyWord_controlWord_base (hv : c.variant = .base) (k : Microstep) (e : Engine c) :
    (applyWord (controlWord c.variant e.irA k) e).sp = e.sp
      ∧ (applyWord (controlWord c.variant e.irA k) e).dispData = e.dispData
      ∧ (applyWord (controlWord c.variant e.irA k) e).dispCtrl = e.dispCtrl := by
  have absent : ∀ x ∈ extOnlySignals, x ∉ controlWord c.variant e.irA k :=
    fun x hx => extOnlySignals_notMem_controlWord hv hx
  exact ⟨applyWord_sp_unwritten (fun x hx => absent x (List.mem_append_left _ hx)) e,
    applyWord_dispData_unwritten (absent .di (by decide)) e, applyWord_dispCtrl_unwritten (absent .dc (by decide)) e⟩

/-- Fault entry keeps the invariant: it sets `halted` with `fault` and nothing else. -/
theorem raise_inv {e : Engine c} (h : e.Inv) (f : FaultValue c.variant) : (e.raise f).Inv := by
  obtain ⟨hmem, -, hstep, hbase⟩ := h
  exact ⟨hmem, fun _ => rfl, hstep, hbase⟩

theorem pulse_inv {e : Engine c} (h : e.Inv) : (pulse e).Inv := by
  obtain ⟨-, hp⟩ | ⟨-, -, -, hp⟩ | ⟨-, -, hp⟩ := pulse_cases e
  · rwa [hp]
  · rw [hp]; exact raise_inv h _
  · obtain ⟨hmem, hfault, hstep, hbase⟩ := h
    refine ⟨?_, ?_, pulse_microstepInRange hstep, fun hv => ?_⟩
    · rw [hp]; exact applyWord_mem_wf hmem _
    · rw [hp]; exact applyWord_fault_halted hfault _
    · obtain ⟨hsp, hdata, hctrl⟩ := applyWord_controlWord_base hv e.microstep e
      rw [hp, hsp, hdata, hctrl]
      exact hbase hv

/-- Settles O10, clause by clause of the invariant. -/
theorem pulseKeepsInvariant : Obligations.PulseKeepsInvariant := fun _ _ h => pulse_inv h

/-- An engine at its reset values with a memory in canonical form has the invariant, whatever KEY holds. -/
theorem applyReset_inv {e : Engine c} (hmem : Memory.wf c.memSize e.mem = true) : e.applyReset.Inv :=
  ⟨hmem, fun hfault => absurd rfl hfault, fun h3 => by simp [Microstep.number] at h3, fun _ => ⟨rfl, rfl, rfl⟩⟩

theorem initial_inv (c : Config) : (State.initial c).Inv :=
  ⟨applyReset_inv (e := Engine.initial c) rfl, le_refl 0, le_refl 0, zero_lt_one⟩

/-- Settles O12: the reset state is one of the initial ones. -/
theorem resetHasInvariant : Obligations.ResetHasInvariant := ⟨initial_inv _, initial_inv⟩

end Sys2Proof.Machine
end

section
/-! PROOF. O11: every step keeps the invariant (spec/10_state.md R22). A step is pulses: `toBoundary` by definition, and the
meaning of an instruction because its words from microstep 3 on are those of the table (`MatchesTable`), so that running them
is running pulses. -/

namespace Sys2Proof.Machine

variable {c : Config}

theorem pulses_inv {e : Engine c} (h : e.Inv) (n : Nat) : (pulses n e).Inv := by
  induction n generalizing e with
  | zero => exact h
  | succ n ih => exact ih (pulse_inv h)

theorem settle_inv {e : Engine c} (h : e.Inv) (n : Nat) : (settle n e).Inv := by
  induction n generalizing e with
  | zero => exact h
  | succ n ih =>
    unfold settle
    split
    · exact h
    · exact ih (pulse_inv h)

theorem toBoundary_inv {e : Engine c} (h : e.Inv) : (toBoundary e).Inv := by
  unfold toBoundary
  split
  · exact h
  · exact settle_inv (pulse_inv h) 6

/-- The words of an instruction's meaning: fetch microstep 3, then the execute words of its row. -/
def instrWords (op : Opcode) : List ControlWord := thirdFetchWord (some op) :: (descriptor op).execWords

/-- Words that are the table's from a microstep on, none of them loading IR, and only the last with ORST. -/
def MatchesTable (v : Variant) (irA : BitVec v.halfWidth) : Microstep → List ControlWord → Prop
  | _, [] => True
  | k, cw :: rest => cw = controlWord v irA k ∧ k ≠ .t2 ∧ (.orst ∈ cw → rest = []) ∧ MatchesTable v irA k.succ rest

theorem instrWords_matchesTable {v : Variant} {irA : BitVec v.halfWidth} {op : Opcode} (hop : opcodeOf v irA = some op) :
    MatchesTable v irA .t3 (instrWords op) := by
  cases op <;>
    simp [MatchesTable, instrWords, thirdFetchWord, controlWord, execWord, descriptor, Microstep.succ, Microstep.number, hop]

/-- A control word of the table halts the engine, or ends the instruction, or leaves IR_A and moves on by one microstep. -/
theorem applyWord_controlWord_advances {e : Engine c} (hk : e.microstep ≠ .t2) :
    (applyWord (controlWord c.variant e.irA e.microstep) e).halted = true
      ∨ .orst ∈ controlWord c.variant e.irA e.microstep
      ∨ (applyWord (controlWord c.variant e.irA e.microstep) e).irA = e.irA
        ∧ (applyWord (controlWord c.variant e.irA e.microstep) e).microstep = e.microstep.succ := by
  obtain ⟨f, -, hf⟩ | ⟨-, -, hw⟩ := applyWord_cases (controlWord c.variant e.irA e.microstep) e
  · exact .inl (by rw [hf, raise_halted])
  · by_cases horst : .orst ∈ controlWord c.variant e.irA e.microstep
    · exact .inr (.inl horst)
    · have noIi := (has_eq_false _ .ii).mpr (ii_notMem_controlWord (irA := e.irA) hk)
      have noOrst := (has_eq_false ..).mpr horst
      exact .inr (.inr (by simp [hw, noIi, noOrst]))

/-- Running the table's words is running pulses. -/
theorem runWords_eq_pulses {op : Opcode} {words : List ControlWord} {e : Engine c}
    (hop : opcodeOf c.variant e.irA = some op) (hm : MatchesTable c.variant e.irA e.microstep words) :
    runWords words e = pulses words.length e := by
  induction words generalizing e with
  | nil => rfl
  | cons cw rest ih =>
    cases hh : e.halted with
    | true => rw [runWords_halted hh, pulses_halted hh]
    | false =>
      obtain ⟨rfl, hk, hlast, hrest⟩ := hm
      rw [runWords_cons hh, List.length_cons, pulses_succ, pulse_valid hh hop]
      obtain halts | ends | ⟨hir, hnext⟩ := applyWord_controlWord_advances hk
      · rw [runWords_halted halts, pulses_halted halts]
      · rw [hlast ends, runWords_nil, List.length_nil, pulses_zero]
      · exact ih (by rw [hir]; exact hop) (by rw [hir, hnext]; exact hrest)

/-- On an engine whose variant has the opcode, the meaning of an instruction is the words of its row. -/
theorem exec_eq_runInstr {i : Instr} {s : State} (h : i.opcode.existsIn s.cfg.variant = true) :
    exec i s = s.runInstr i.opcode.code i.operand (instrWords i.opcode) := by
  have ext : ∀ (mnemonic : String) (code : Nat) (x : Operand) (words : List ControlWord), s.cfg.variant = .ext →
      s.runExtInstr mnemonic code x words = s.runInstr code x words := by
    intro mnemonic code x words hv
    simp only [State.runExtInstr, hv]
  cases i
  case psh | pop | cal | ret | lsp | dsd | dsc =>
    refine ext _ _ _ _ ?_
    cases hv : s.cfg.variant with
    | base => simp [hv, Instr.opcode, Opcode.existsIn] at h
    | ext => rfl
  all_goals rfl

theorem latched_inv {e : Engine c} (h : e.Inv) (code : Nat) (x : Operand) : (latched code x e).Inv := by
  obtain ⟨hmem, hfault, -, hbase⟩ := h
  exact ⟨hmem, hfault, fun _ => three_le_lastMicrostep .., hbase⟩

/-- A decoded instruction keeps the invariant of the engine. -/
theorem runWords_latched_inv {e : Engine c} (h : e.Inv) {op : Opcode} (hop : op.existsIn c.variant = true) (x : Operand) :
    (runWords (instrWords op) (latched op.code x e)).Inv := by
  have found : opcodeOf c.variant (latched op.code x e).irA = some op := opcodeOf_code hop
  rw [runWords_eq_pulses found (instrWords_matchesTable found)]
  exact pulses_inv (latched_inv h op.code x) _

theorem existsIn_of_decode {v : Variant} {w : BitVec v.wordWidth} {i : Instr} (h : decode v w = .ok i) :
    i.opcode.existsIn v = true := by
  unfold decode at h
  split at h
  case h_1 op hop =>
    obtain rfl := Except.ok.inj h
    rw [opcode_instr]
    exact (opcodeOf_some hop).2
  case h_2 => simp at h

theorem exec_inv {i : Instr} {s t : State} (h : s.Inv) (hop : i.opcode.existsIn s.cfg.variant = true)
    (he : exec i s = .next t) : t.Inv := by
  obtain ⟨hengine, hclock⟩ := h
  rw [exec_eq_runInstr hop, State.runInstr] at he
  split at he
  · obtain rfl := Host.Outcome.next.inj he
    exact ⟨hengine, hclock⟩
  · obtain rfl := Host.Outcome.next.inj he
    exact ⟨runWords_latched_inv hengine hop _, hclock⟩

/-- Everything a step can answer: the state itself where halted, the decoded instruction's meaning at a boundary, else the
pulses to the next boundary. -/
theorem step_cases (s : State) :
    (s.engine.halted = true ∧ step s = .next s)
      ∨ (∃ i, s.engine.AtBoundary ∧ decode s.cfg.variant s.fetchWord = .ok i ∧ step s = exec i s)
      ∨ (s.engine.halted = false ∧ step s = .next { s with engine := toBoundary s.engine }) := by
  unfold step
  split
  case isTrue hh => exact .inl ⟨hh, rfl⟩
  case isFalse hh =>
    have running : s.engine.halted = false := by simpa using hh
    split
    case isTrue hk =>
      split
      case h_1 i hi => exact .inr (.inl ⟨i, ⟨running, hk⟩, hi, rfl⟩)
      case h_2 => exact .inr (.inr ⟨running, rfl⟩)
    case isFalse => exact .inr (.inr ⟨running, rfl⟩)

/-- Settles O11: whatever a step answers, pulses lead there. -/
theorem stepKeepsInvariant : Obligations.StepKeepsInvariant := by
  intro s t h ht
  obtain ⟨-, hs⟩ | ⟨i, -, hi, hs⟩ | ⟨-, hs⟩ := step_cases s
  · obtain rfl := Host.Outcome.next.inj (hs.symm.trans ht)
    exact h
  · exact exec_inv h (existsIn_of_decode hi) (hs.symm.trans ht)
  · obtain rfl := Host.Outcome.next.inj (hs.symm.trans ht)
    obtain ⟨hengine, hclock⟩ := h
    exact ⟨toBoundary_inv hengine, hclock⟩

end Sys2Proof.Machine
end

section
/-! PROOF. O13: every host call keeps the invariant and the configuration (spec/60_exceptions.md R240): a call runs pulses,
sets the clock driver, sets KEY or resets. -/

namespace Sys2Proof.Machine

theorem runPulses_fst {c : Config} (n : Nat) (e : Engine c) : (runPulses n e).1 = pulses n e := by
  induction n generalizing e with
  | zero => rfl
  | succ n ih =>
    cases hh : e.halted with
    | true => simp [runPulses, hh, pulses_halted hh]
    | false => simp [runPulses, hh, ih, pulses_succ]

/-- What remains of the accumulator is a fractional part. -/
theorem due_inv {k : Clock} (h : k.Inv) (elapsed : Rat) : (k.due elapsed).2.Inv := by
  obtain ⟨hhz, -, -⟩ := h
  exact ⟨hhz, Int.fract_nonneg (k.acc + elapsed * k.targetHz), Int.fract_lt_one (k.acc + elapsed * k.targetHz)⟩

/-- What a host call keeps: the invariant, and the configuration of the machine it was made on. -/
def KeptFrom (s t : State) : Prop := t.Inv ∧ t.cfg = s.cfg

theorem ranPulses_kept {s : State} (h : s.Inv) {clock : Clock} (hclock : clock.Inv) (n : Nat) :
    KeptFrom s ((s.ranPulses n clock).stateOr s) := by
  refine ⟨⟨?_, hclock⟩, rfl⟩
  show (runPulses n s.engine).1.Inv
  rw [runPulses_fst]
  exact pulses_inv h.1 n

theorem configure_kept {s : State} (h : s.Inv) (hz : Rat) : KeptFrom s ((s.configure hz).getD s) := by
  unfold State.configure
  split
  case isTrue positive => exact ⟨⟨h.1, positive.le, le_refl 0, zero_lt_one⟩, rfl⟩
  case isFalse => exact ⟨h, rfl⟩

theorem advance_kept {s : State} (h : s.Inv) (elapsed : Rat) : KeptFrom s ((s.advance elapsed).stateOr s) := by
  unfold State.advance
  split_ifs
  · exact ⟨h, rfl⟩
  · exact ⟨h, rfl⟩
  · exact ranPulses_kept h (due_inv h.2 elapsed) _

theorem afterCall_kept {s : State} (h : s.Inv) (call : HostCall) : KeptFrom s (s.afterCall call) := by
  obtain ⟨hengine, hclock⟩ := h
  cases call with
  | configure hz => exact configure_kept ⟨hengine, hclock⟩ hz
  | advance elapsed => exact advance_kept ⟨hengine, hclock⟩ elapsed
  | tick => exact ranPulses_kept ⟨hengine, hclock⟩ hclock 1
  | setKey k => exact ⟨⟨hengine, hclock⟩, rfl⟩
  | snapshot => exact ⟨⟨hengine, hclock⟩, rfl⟩
  | reset =>
    obtain ⟨hmem, -⟩ := hengine
    exact ⟨⟨applyReset_inv hmem, hclock⟩, rfl⟩

/-- Settles O13, by induction on the calls. -/
theorem hostCallsKeepInvariant : Obligations.HostCallsKeepInvariant := by
  intro s calls h
  induction calls generalizing s with
  | nil => exact ⟨h, rfl⟩
  | cons call rest ih =>
    obtain ⟨hinv, hcfg⟩ := afterCall_kept h call
    obtain ⟨hinv', hcfg'⟩ := ih (s.afterCall call) hinv
    exact ⟨hinv', hcfg'.trans hcfg⟩

end Sys2Proof.Machine
end

section
/-! PROOF. Support for O50 and O53: what the meaning of an instruction leaves on a running engine: the exact engine after the
three that store, and an unchanged memory after the other eighteen (spec/20_memory.md R54). -/

namespace Sys2Proof.Machine

variable {c : Config}

theorem pcAfter_toNat (pc : BitVec c.halfWidth) : (pcAfter c pc).toNat = (pc.toNat + 1) % c.memSize := by
  rw [Config.memSize, memSize_eq]
  simp [pcAfter]

/-- The meaning of an instruction on a running engine of a variant that has it. -/
theorem exec_running {i : Instr} {s : State} (hh : s.engine.halted = false)
    (hop : i.opcode.existsIn s.cfg.variant = true) :
    exec i s
      = .next { s with engine := runWords (instrWords i.opcode) (latched i.opcode.code i.operand s.engine) } := by
  simp [exec_eq_runInstr hop, State.runInstr, hh]

/-! ### The instructions that store

Each is run word by word; what remains at every word is that the engine still runs and is not at the last microstep. -/

theorem runWords_sta {e : Engine c} (hh : e.halted = false) (a : Operand) :
    runWords (instrWords .sta) (latched Opcode.sta.code a e) = { afterFetch (.sta a) e with
      mem := e.mem.write (operandOn c a).toNat e.a
      mar := operandOn c a } := by
  show runWords [[.ce], [.io, .mi], [.ao, .ri, .orst]] _ = _
  rw [runWords_cons, applyWord_ce, runWords_cons, applyWord_io_mi, runWords_cons, applyWord_ao_ri_orst, runWords_nil]
  · rfl
  all_goals simp [hh, Microstep.succ]

theorem runWords_psh {e : Engine c} (hh : e.halted = false) (x : Operand) :
    runWords (instrWords .psh) (latched Opcode.psh.code x e) = { afterFetch (.psh x) e with
      mem := e.mem.write (stackAddr c e.sp) e.a
      sp := spUp c e.sp } := by
  show runWords [[.ce], [.ao, .spu, .orst]] _ = _
  rw [runWords_cons, applyWord_ce, runWords_cons, applyWord_ao_spu_orst, runWords_nil]
  · rfl
  all_goals simp [hh]

theorem runWords_cal {e : Engine c} (hh : e.halted = false) (t : Operand) :
    runWords (instrWords .cal) (latched Opcode.cal.code t e) = { afterFetch (.cal t) e with
      mem := e.mem.write (stackAddr c e.sp) (onBus c (pcAfter c e.pc))
      sp := spUp c e.sp
      pc := operandOn c t } := by
  show runWords [[.ce], [.co, .spu], [.io, .ju, .orst]] _ = _
  rw [runWords_cons, applyWord_ce, runWords_cons, applyWord_co_spu, runWords_cons, applyWord_io_ju_orst, runWords_nil]
  · rfl
  all_goals simp [hh, Microstep.succ]

/-! ### The instructions that do not -/

/-- The only rows of the descriptor table with a signal of MEMWRITERS. -/
theorem opcode_of_memWriter {op : Opcode} :
    ∀ cw ∈ instrWords op, ∀ x ∈ memWriters, x ∈ cw → op = .sta ∨ op = .psh ∨ op = .cal := by
  cases op <;> decide

theorem applyWord_mem_unwritten {cw : ControlWord} (h : ∀ x ∈ memWriters, x ∉ cw) (e : Engine c) :
    (applyWord cw e).mem = e.mem :=
  applyWord_keeps _ (by simp) (by simp [nextMem_unwritten h])

theorem runWords_mem_unwritten {words : List ControlWord} (h : ∀ cw ∈ words, ∀ x ∈ memWriters, x ∉ cw) (e : Engine c) :
    (runWords words e).mem = e.mem := by
  induction words generalizing e with
  | nil => rfl
  | cons cw rest ih =>
    obtain ⟨hcw, hrest⟩ := List.forall_mem_cons.mp h
    cases hh : e.halted with
    | true => rw [runWords_halted hh]
    | false => rw [runWords_cons hh, ih hrest, applyWord_mem_unwritten hcw]

theorem runWords_mem_of_not_store {op : Opcode} (hop : ¬ (op = .sta ∨ op = .psh ∨ op = .cal)) (e : Engine c) :
    (runWords (instrWords op) e).mem = e.mem :=
  runWords_mem_unwritten (fun cw hcw x hx hmem => hop (opcode_of_memWriter cw hcw x hx hmem)) e

end Sys2Proof.Machine
end

section
/-! PROOF. O50: the memory frame of every instruction (spec/20_memory.md R54, R57). Where an instruction stores, its memory is
one write to the memory before it, which a canonical memory reads back at that address alone. -/

namespace Sys2Proof.Machine

/-- Settles O50, instruction by instruction: three store one word, and the others' words write no memory. -/
theorem storesChangeOnlyTheirWord : Obligations.StoresChangeOnlyTheirWord := by
  intro s i hwf hh hop
  refine ⟨_, exec_running hh hop, ?_⟩
  have written (a : Nat) (v : BitVec s.cfg.wordWidth) :
      (∀ addr, addr ≠ a → (s.engine.mem.write a v).read addr = s.engine.mem.read addr)
        ∧ (s.engine.mem.write a v).read a = v :=
    ⟨fun _ other => read_write_other hwf other v, read_write_same hwf a v⟩
  cases i
  case sta a =>
    simp only [Instr.opcode, Instr.operand, runWords_sta hh]
    exact written _ _
  case psh x =>
    simp only [Instr.opcode, Instr.operand, runWords_psh hh]
    exact written _ _
  case cal t =>
    simp only [Instr.opcode, Instr.operand, runWords_cal hh]
    obtain ⟨others, stored⟩ := written (stackAddr s.cfg s.engine.sp) (onBus s.cfg (pcAfter s.cfg s.engine.pc))
    exact ⟨others, by rw [stored, onBus_toNat, pcAfter_toNat]⟩
  all_goals
    intro addr
    rw [runWords_mem_of_not_store (by simp [Instr.opcode]), latched_mem]

end Sys2Proof.Machine
end

section
/-! PROOF. O53: fetch is coherent with stores (spec/20_memory.md R64, spec/70_reset_and_hazards.md R261). After the STA the
engine stands at the next boundary with PC at the stored word. -/

namespace Sys2Proof.Machine

/-- A step at a boundary whose word decodes is the meaning of that instruction. -/
theorem step_of_decode {s : State} {i : Instr} (hs : s.engine.AtBoundary)
    (hi : decode s.cfg.variant s.fetchWord = .ok i) : step s = exec i s := by
  obtain ⟨hh, hk⟩ := hs
  simp [step, hh, hk, hi]

/-- Settles O53: the step after the STA fetches the word A held, at PC + 1. -/
theorem storedWordIsTheNextInstruction : Obligations.StoredWordIsTheNextInstruction := by
  intro s a i hs hwf hsta hnext hi
  have running : s.engine.halted = false := hs.1
  have stores := (step_of_decode hs hsta).trans (exec_running running (existsIn_of_decode hsta))
  simp only [Instr.opcode, Instr.operand, runWords_sta running] at stores
  have fetched : (s.engine.mem.write (operandOn s.cfg a).toNat s.engine.a).read (s.engine.pc + 1).toNat = s.engine.a := by
    rw [hnext, read_write_same hwf]
  exact ⟨_, stores, step_of_decode ⟨running, rfl⟩ ((congrArg (decode s.cfg.variant) fetched).trans hi)⟩

end Sys2Proof.Machine
end

section
/-! PROOF. O2 and O3: decoding and encoding undo each other (spec/30_encoding.md R80, R88, R91). A word is its two fields
(`joinFields_fields`), the opcode map is read in both directions (`opcodeOf_code`, `opcodeOf_some`), and the operand loses no
bit between the H-bit field and the 8 bits of an `Operand`. -/

namespace Sys2Proof.Machine

variable {v : Variant} {w : BitVec v.wordWidth}

/-! ### What the decoder answers -/

theorem decode_of_some {op : Opcode} (h : opcodeOf v (opcodeField v w) = some op) :
    decode v w = .ok (op.instr ((operandField v w).setWidth 8)) := by
  simp [decode, h]

theorem decode_of_none (h : opcodeOf v (opcodeField v w) = none) :
    decode v w = .error (.invalidOpcode (opcodeField v w).toNat) := by
  simp [decode, h]

theorem decode_eq_ok_iff {i : Instr} :
    decode v w = .ok i
      ↔ ∃ op, opcodeOf v (opcodeField v w) = some op ∧ op.instr ((operandField v w).setWidth 8) = i := by
  cases hop : opcodeOf v (opcodeField v w) with
  | none => simp [decode_of_none hop]
  | some op => simp [decode_of_some hop]

theorem decode_eq_error_iff {n : Nat} :
    decode v w = .error (.invalidOpcode n) ↔ opcodeOf v (opcodeField v w) = none ∧ (opcodeField v w).toNat = n := by
  cases hop : opcodeOf v (opcodeField v w) with
  | none => simp [decode_of_none hop]
  | some op => simp [decode_of_some hop]

/-! ### The operand between its field and the `Operand` of an instruction -/

theorem halfWidth_le_operandWidth (v : Variant) : v.halfWidth ≤ 8 := by cases v <;> decide

theorem setWidth_operand_toNat (x : BitVec v.halfWidth) : (x.setWidth 8).toNat = x.toNat :=
  BitVec.toNat_setWidth_of_le (halfWidth_le_operandWidth v)

theorem setWidth_ofNat_operand {x : Operand} (hx : x.toNat < 2 ^ v.halfWidth) :
    (BitVec.ofNat v.halfWidth x.toNat).setWidth 8 = x := by
  apply BitVec.eq_of_toNat_eq
  rw [setWidth_operand_toNat, BitVec.toNat_ofNat, Nat.mod_eq_of_lt hx]

/-! ### The round trips -/

/-- Settles O2: the fields of `{code, operand}` are the code, which the opcode map finds again, and the operand. -/
theorem decodeAfterEncodeIsIdentity : Obligations.DecodeAfterEncodeIsIdentity := by
  intro v i hwf
  obtain ⟨hop, hx⟩ := wellFormed_iff.mp hwf
  have opcodeRead : opcodeField v (encode v i) = BitVec.ofNat v.halfWidth i.opcode.code :=
    opcodeField_joinFields (code_lt hop) hx
  have operandRead : operandField v (encode v i) = BitVec.ofNat v.halfWidth i.operand.toNat :=
    operandField_joinFields (code_lt hop) hx
  have found : opcodeOf v (opcodeField v (encode v i)) = some i.opcode := by rw [opcodeRead, opcodeOf_code hop]
  rw [decode_of_some found, operandRead, setWidth_ofNat_operand hx, instr_opcode_operand]

/-- Settles O3: the opcode found under a field has that field as its code, so encoding joins the word's own two fields. -/
theorem encodeAfterDecodeIsIdentity : Obligations.EncodeAfterDecodeIsIdentity := by
  intro v w i h
  obtain ⟨op, hop, rfl⟩ := decode_eq_ok_iff.mp h
  obtain ⟨hfield, hexists⟩ := opcodeOf_some hop
  have code_eq : op.code = (opcodeField v w).toNat := by
    rw [hfield, BitVec.toNat_ofNat, Nat.mod_eq_of_lt (code_lt hexists)]
  constructor
  · rw [wellFormed_iff, opcode_instr, operand_instr, setWidth_operand_toNat]
    exact ⟨hexists, (operandField v w).isLt⟩
  · rw [encode, opcode_instr, operand_instr, setWidth_operand_toNat, code_eq, joinFields_fields]

end Sys2Proof.Machine
end

section
/-! PROOF. O4: the invalid words are those whose opcode field the maps of spec/30_encoding.md R90 call invalid (R91). -/

namespace Sys2Proof.Machine

theorem opcodeField_toNat (v : Variant) (w : BitVec v.wordWidth) :
    (opcodeField v w).toNat = w.toNat / 2 ^ v.halfWidth := by
  have hw := w.isLt
  rw [opcodeField, BitVec.extractLsb'_toNat, Nat.shiftRight_eq_div_pow]
  apply Nat.mod_eq_of_lt
  cases v <;> simp only [Variant.wordWidth, Variant.halfWidth] at * <;> omega

theorem opcodeOf_base_eq_none_iff : ∀ code : BitVec 4,
    opcodeOf .base code = none ↔ code.toNat = 0xC ∨ code.toNat = 0xD := by decide

theorem opcodeOf_ext_eq_none_iff : ∀ code : BitVec 8,
    opcodeOf .ext code = none ↔ code.toNat = 0x0C ∨ code.toNat = 0x0D ∨ 0x17 ≤ code.toNat := by decide

/-- A word is refused, by its own opcode field, exactly where the opcode map has no entry. -/
theorem decode_eq_error_field_iff {v : Variant} {w : BitVec v.wordWidth} :
    decode v w = .error (.invalidOpcode (w.toNat / 2 ^ v.halfWidth)) ↔ opcodeOf v (opcodeField v w) = none := by
  rw [decode_eq_error_iff, opcodeField_toNat, and_iff_left rfl]

/-- Settles O4, from the two opcode maps read at the opcode field. -/
theorem invalidOpcodesAreExactlyTheListed : Obligations.InvalidOpcodesAreExactlyTheListed := by
  refine ⟨fun w => ?base, fun w => ?ext, fun v w op h => ?names⟩
  case base =>
    have field : (opcodeField .base w).toNat = w.toNat / 16 := opcodeField_toNat .base w
    rw [← field, ← opcodeOf_base_eq_none_iff, field]
    exact decode_eq_error_field_iff (v := .base)
  case ext =>
    have field : (opcodeField .ext w).toNat = w.toNat / 256 := opcodeField_toNat .ext w
    rw [← field, ← opcodeOf_ext_eq_none_iff, field]
    exact decode_eq_error_field_iff (v := .ext)
  case names =>
    obtain ⟨-, rfl⟩ := decode_eq_error_iff.mp h
    exact opcodeField_toNat v w

end Sys2Proof.Machine
end

section
/-! PROOF. O5: the operand field of an opcode of kind `none` is not read (spec/30_encoding.md R83). The field stands in IR_B,
which IO alone puts on the bus and II alone loads; no word of such an opcode from microstep 3 on holds either. -/

namespace Sys2Proof.Machine

variable {c : Config}

theorem busValue_setIrB {cw : ControlWord} (hio : .io ∉ cw) (x : BitVec c.halfWidth) (e : Engine c) :
    busValue cw { e with irB := x } = busValue cw e := by
  have noIo := (has_eq_false cw .io).mpr hio
  simp only [busValue, noIo]
  rfl

theorem writeBack_setIrB {cw : ControlWord} (hii : .ii ∉ cw) (bus : BitVec c.wordWidth) (x : BitVec c.halfWidth)
    (e : Engine c) : writeBack cw bus { e with irB := x } = { writeBack cw bus e with irB := x } := by
  have noIi := (has_eq_false cw .ii).mpr hii
  simp only [writeBack, noIi]
  rfl

/-- Setting IR_B commutes with a control word that neither drives it onto the bus nor loads it. -/
theorem applyWord_setIrB {cw : ControlWord} (hio : .io ∉ cw) (hii : .ii ∉ cw) (x : BitVec c.halfWidth) (e : Engine c) :
    applyWord cw { e with irB := x } = { applyWord cw e with irB := x } := by
  have checks : firstFailedCheck cw { e with irB := x } = firstFailedCheck cw e := rfl
  have addresses : ∀ bus, addressFault cw { e with irB := x } bus = addressFault cw e bus := fun _ => rfl
  have writes : ∀ bus, writeBack cw bus { e with irB := x } = { writeBack cw bus e with irB := x } :=
    fun bus => writeBack_setIrB hii bus x e
  simp only [applyWord, checks, addresses, busValue_setIrB hio x e, writes]
  cases firstFailedCheck cw e with
  | some check => rfl
  | none =>
    cases addressFault cw e ((busValue cw e).getD 0#c.wordWidth) with
    | some addr => rfl
    | none => rfl

/-- Setting IR_B commutes with a sequence of such words. -/
theorem runWords_setIrB {words : List ControlWord} (h : ∀ cw ∈ words, .io ∉ cw ∧ .ii ∉ cw) (x : BitVec c.halfWidth)
    (e : Engine c) : runWords words { e with irB := x } = { runWords words e with irB := x } := by
  induction words generalizing e with
  | nil => rfl
  | cons cw rest ih =>
    obtain ⟨⟨hio, hii⟩, hrest⟩ := List.forall_mem_cons.mp h
    obtain hh | hh := Bool.eq_false_or_eq_true e.halted
    · rw [runWords_halted hh, runWords_halted (e := { e with irB := x }) hh]
    · rw [runWords_cons hh, runWords_cons (e := { e with irB := x }) hh, applyWord_setIrB hio hii, ih hrest]

/-- The rows of the descriptor table with operand kind `none` hold neither signal. -/
theorem irB_unused_of_kind_none {op : Opcode} (h : (descriptor op).operandKind = .none) :
    ∀ cw ∈ instrWords op, Signal.io ∉ cw ∧ Signal.ii ∉ cw := by
  revert h; cases op <;> decide

/-- Settles O5: the engine is that of the operand field 0, and another field sets IR_B before the words and so after them. -/
theorem operandFieldOfKindNoneIsIgnored : Obligations.OperandFieldOfKindNoneIsIgnored := by
  intro op x y s hkind hop hh
  have result (z : Operand) : exec (op.instr z) s = .next { s with
      engine := { runWords (instrWords op) (latched op.code 0 s.engine) with irB := operandOn s.cfg z } } := by
    rw [exec_running hh (by rwa [opcode_instr]), opcode_instr, operand_instr,
      ← runWords_setIrB (irB_unused_of_kind_none hkind)]
    rfl
  exact ⟨_, result x, result y⟩

end Sys2Proof.Machine
end

section
/-! PROOF. O1 and O49: the spec's encoding examples (spec/30_encoding.md R92), and the seven instructions that BASE does not
have (R88, R90). -/

namespace Sys2Proof.Machine

/-- Settles O1: the encodings in each variant, then the decodings, evaluated at the words of the examples. -/
theorem specEncodingExamples : Obligations.SpecEncodingExamples := by
  refine ⟨?baseEncodings, ?extEncodings, ?decodings⟩
  case baseEncodings => decide
  case extEncodings => decide
  case decodings => decide

/-- The meaning of an instruction that only EXT has is its row's words behind the test of the variant. -/
theorem exec_of_not_existsIn_base {i : Instr} (h : i.opcode.existsIn .base = false) (s : State) :
    exec i s = s.runExtInstr (descriptor i.opcode).mnemonic i.opcode.code i.operand (instrWords i.opcode) := by
  cases i
  case psh | pop | cal | ret | lsp | dsd | dsc => rfl
  all_goals simp [Instr.opcode, Opcode.existsIn] at h

/-- Settles O49: a decoded opcode is in the map of its variant, and `exec` tests the variant first. -/
theorem extOnlyInstructionsDoNotExistInBase : Obligations.ExtOnlyInstructionsDoNotExistInBase := by
  refine ⟨fun w i h => existsIn_of_decode (v := .base) h, fun s i hv h => ?_⟩
  rw [exec_of_not_existsIn_base h, State.runExtInstr, hv]

end Sys2Proof.Machine
end

section
/-! PROOF. O25, O26 and O24: the ALU, the shift signals and the flags (spec/40_pulse_engine.md R107, R108, R115, R124). The
model computes the difference and the shifted results as the spec writes them; what is left is to read them as numbers. -/

namespace Sys2Proof.Machine

variable {c : Config} {w : Nat}

/-! ### The ALU -/

theorem aluAdd_result_toNat (a b : BitVec w) : (aluAdd a b).result.toNat = (a.toNat + b.toNat) % 2 ^ w :=
  BitVec.toNat_ofNat ..

theorem aluSub_result_toNat (a b : BitVec w) :
    ((aluSub a b).result.toNat : Int) = ((a.toNat : Int) - (b.toNat : Int)) % (2 ^ w : Nat) := by
  have nonneg : 0 ≤ ((a.toNat : Int) - (b.toNat : Int)) % (2 ^ w : Nat) :=
    Int.emod_nonneg _ (by exact_mod_cast (Nat.two_pow_pos w).ne')
  rw [show (aluSub a b).result = BitVec.ofInt w ((a.toNat : Int) - b.toNat) from rfl, BitVec.toNat_ofInt,
    Int.toNat_of_nonneg nonneg]

/-- Both operations set zero exactly where their result is 0. -/
theorem alu_zero_iff (a b : BitVec w) (sub : Bool) : (alu a b sub).zero = true ↔ (alu a b sub).result.toNat = 0 := by
  rw [show (alu a b sub).result.toNat = 0 ↔ (alu a b sub).result = 0#w by simp [BitVec.toNat_eq]]
  cases sub with
  | false => exact decide_eq_true_iff
  | true => exact decide_eq_true_iff

/-- The ALU of a pulse subtracts exactly where SU is among the signals. -/
theorem liveAlu_eq (cw : ControlWord) (e : Engine c) : liveAlu cw e = alu e.a e.b (decide (Signal.su ∈ cw)) := by
  have sub : cw.has .su = decide (Signal.su ∈ cw) := by rw [Bool.eq_iff_iff, has_iff_mem, decide_eq_true_iff]
  rw [liveAlu, sub]

/-- Settles O25, operation by operation: the carries are comparisons by definition. -/
theorem aluComputes : Obligations.AluComputes := fun _ a b =>
  ⟨⟨aluAdd_result_toNat a b, decide_eq_true_iff⟩, ⟨aluSub_result_toNat a b, decide_eq_true_iff⟩, alu_zero_iff a b,
    fun _ e cw => liveAlu_eq cw e⟩

/-! ### The shifts -/

theorem shiftLeft_zero (a : BitVec w) : (shiftLeft a).zero = decide (a.toNat * 2 % 2 ^ w = 0) :=
  decide_eq_decide.mpr (ofNat_eq_zero_iff _)

theorem shiftRight_zero (a : BitVec w) : (shiftRight a).zero = decide (a.toNat / 2 = 0) := by
  have fits : a.toNat / 2 < 2 ^ w := lt_of_le_of_lt (Nat.div_le_self ..) a.isLt
  rw [← Nat.mod_eq_of_lt fits]
  exact decide_eq_decide.mpr (ofNat_eq_zero_iff _)

/-- Settles O26: what the pulse does with each of the two words, its shift read as numbers. -/
theorem shiftSignalsShiftA : Obligations.ShiftSignalsShiftA := by
  refine fun c e => ⟨?left, ?right⟩
  case left => rw [applyWord_sl_orst, shiftLeft_carry, shiftLeft_zero, ofNat_mod_two_pow, shiftLeft]
  case right => rw [applyWord_sr_orst, shiftRight_carry, shiftRight_zero, shiftRight]

/-! ### The flags of a pulse -/

/-- Settles O24: FI comes first among the writers of a flag, and a word without any of them holds both. -/
theorem flagsAreLatchedByFi : Obligations.FlagsAreLatchedByFi := by
  refine fun c e cw => ⟨fun hfi _ noFault => ?latched, fun hfi hsl hsr => ?held⟩
  case latched =>
    have fi : cw.has .fi = true := (has_iff_mem cw .fi).mpr hfi
    obtain ⟨f, hf, raised⟩ | ⟨-, -, written⟩ := applyWord_cases cw e
    · rw [raised, raise_fault] at noFault
      exact absurd noFault hf
    · simp [written, nextCarry, nextZero, fi, liveAlu_eq]
  case held =>
    have unwritten : ∀ x ∈ flagWriters, x ∉ cw := by simp [flagWriters, hfi, hsl, hsr]
    exact ⟨applyWord_keeps _ (by simp) (by simp [nextCarry_unwritten unwritten]),
      applyWord_keeps _ (by simp) (by simp [nextZero_unwritten unwritten])⟩

end Sys2Proof.Machine
end

section
/-! PROOF. O18 and O19: the defensive checks (spec/40_pulse_engine.md R104, R119). Every word of the table passes K1 to K8 by
its signals alone, and K9 because no cycle count reaches the last microstep; two drivers in one word fail K1. -/

namespace Sys2Proof.Machine

variable {c : Config}

/-- Looked up in the table, the fetch words and the empty word among them. -/
theorem controlWord_passes (v : Variant) (irA : BitVec v.halfWidth) (k : Microstep) :
    (controlWord v irA k).passes = true := by
  have third : ∀ op, (thirdFetchWord (some op)).passes = true := by intro op; cases op <;> decide
  have execute : ∀ op k, (execWord op k).passes = true := by intro op k; cases op <;> cases k <;> decide
  cases hop : opcodeOf v irA with
  | none =>
    cases k with
    | t1 | t2 => rfl
    | t3 | t4 | t5 | t6 | t7 => simp only [controlWord, hop]; rfl
  | some op =>
    cases k with
    | t1 | t2 => rfl
    | t3 => simp only [controlWord, hop, third]
    | t4 | t5 | t6 | t7 => simp only [controlWord, hop, execute]

theorem cycles_le (op : Opcode) : (descriptor op).cycles ≤ 6 := by cases op <;> decide

theorem lastMicrostep_le (v : Variant) (irA : BitVec v.halfWidth) : lastMicrostep v irA ≤ 6 := by
  unfold lastMicrostep
  split
  · exact cycles_le _
  · decide

theorem firstFailedCheck_controlWord {e : Engine c} (h : e.MicrostepInRange) :
    firstFailedCheck (controlWord c.variant e.irA e.microstep) e = none := by
  refine firstFailedCheck_of_passes (controlWord_passes ..) (.inr fun hk => ?_)
  have inRange := (h (by simp [hk, Microstep.number])).trans (lastMicrostep_le ..)
  simp [hk, Microstep.number] at inRange

/-- A word that passes every check raises an address fault or leaves `fault` as it was. -/
theorem applyWord_fault_of_passed {cw : ControlWord} {e : Engine c} (h : firstFailedCheck cw e = none) :
    (applyWord cw e).fault = e.fault ∨ ∃ addr, (applyWord cw e).fault = .addressOutOfRange addr := by
  simp only [applyWord, h]
  cases addressFault cw e ((busValue cw e).getD 0#c.wordWidth) with
  | some addr => exact .inr ⟨addr, rfl⟩
  | none => exact .inl rfl

/-- Settles O18: the word passes every check, so the pulse's fault is the engine's, InvalidOpcode or an address. -/
theorem tableWordsPassEveryCheck : Obligations.TableWordsPassEveryCheck := by
  refine fun c e h => ⟨firstFailedCheck_controlWord h, fun cw k before => ?_⟩
  obtain ⟨-, hp⟩ | ⟨-, -, -, hp⟩ | ⟨-, -, hp⟩ := pulse_cases e
  · rwa [hp]
  · simp [hp]
  · obtain hf | ⟨addr, hf⟩ := applyWord_fault_of_passed (firstFailedCheck_controlWord h)
    · rwa [hp, hf]
    · simp [hp, hf]

/-- Two different signals of a class count as two. -/
theorem two_le_count {cw : ControlWord} {signals : List Signal} {d d' : Signal} (hd : d ∈ signals) (hd' : d' ∈ signals)
    (hne : d ≠ d') (hcw : d ∈ cw) (hcw' : d' ∈ cw) : 2 ≤ cw.count signals := by
  have both : [d, d'] ⊆ signals.filter cw.has := by
    simp [List.cons_subset, has_iff_mem, hd, hd', hcw, hcw']
  exact (List.subperm_of_subset (by simpa using hne) both).length_le

/-- Settles O19: K1 is the first check, so nothing stands before it. -/
theorem twoBusDriversAreContention : Obligations.TwoBusDriversAreContention := by
  intro c e cw d d' hd hd' hne hcw hcw'
  have k1 : checkFails cw e .k1 = true := decide_eq_true (two_le_count hd hd' hne hcw hcw')
  have first : firstFailedCheck cw e = some .k1 := List.find?_cons_of_pos k1
  rw [applyWord, first]
  rfl

end Sys2Proof.Machine
end

section
/-! PROOF. O16 and O17: the fetch phase, and the fault of a word without an instruction at its fourth pulse
(spec/40_pulse_engine.md R110 to R112, R123). The first three pulses do not depend on the opcode but for NOP's ORST. -/

namespace Sys2Proof.Machine

variable {c : Config} {e : Engine c}

/-- The word at PC, which the next instruction's two fetch pulses load into IR: `State.fetchWord` of a machine with this
engine. -/
def Engine.fetched (e : Engine c) : BitVec c.wordWidth := e.mem.read e.pc.toNat

theorem fetched_eq_fetchWord (s : State) : s.engine.fetched = s.fetchWord := rfl

theorem pulses_one (he : e.AtBoundary) : pulses 1 e = { e with mar := e.pc, microstep := .t2 } := by
  obtain ⟨hh, hk⟩ := he
  rw [pulses_succ, pulse_t1 hh hk, pulses_zero]

theorem pulses_two (he : e.AtBoundary) :
    pulses 2 e = { e with
      mar := e.pc
      irA := opcodeField c.variant e.fetched
      irB := operandField c.variant e.fetched
      microstep := .t3 } := by
  rw [pulses_add 1 1, pulses_one he, pulses_succ, pulses_zero,
    pulse_t2 (e := { e with mar := e.pc, microstep := .t2 }) he.1 rfl]
  rfl

/-- The third pulse of an instruction ends it exactly for NOP, the one opcode of three cycles. -/
theorem applyWord_thirdFetchWord (op : Option Opcode) (hk : e.microstep = .t3) :
    applyWord (thirdFetchWord op) e
      = { e with pc := pcAfter c e.pc, microstep := if op = some .nop then .t1 else .t4 } := by
  have nop : ∀ op, (descriptor op).cycles = 3 ↔ some op = some Opcode.nop := by intro op; cases op <;> decide
  have inner : e.microstep ≠ .t7 := by simp [hk]
  cases op with
  | none => rw [thirdFetchWord, applyWord_ce e inner, hk]; rfl
  | some op =>
    rw [thirdFetchWord]
    simp only [nop]
    split
    · rw [applyWord_ce_orst]
    · rw [applyWord_ce e inner, hk]; rfl

theorem pulses_three (he : e.AtBoundary) :
    pulses 3 e = { e with
      pc := pcAfter c e.pc
      mar := e.pc
      irA := opcodeField c.variant e.fetched
      irB := operandField c.variant e.fetched
      microstep := if opcodeOf c.variant (opcodeField c.variant e.fetched) = some .nop then .t1 else .t4 } := by
  rw [pulses_add 2 1, pulses_two he, pulses_succ, pulses_zero, pulse_t3, applyWord_thirdFetchWord]
  · rfl
  · exact he.1
  · rfl

/-- Settles O16, from the engine after two pulses and after three; PC wraps as an H-bit sum. -/
theorem fetchPhaseLoadsTheWordAndIncrementsPc : Obligations.FetchPhaseLoadsTheWordAndIncrementsPc := by
  refine fun c e he => ⟨pulses_two he, ?_⟩
  rw [← pcAfter_toNat, BitVec.ofNat_toNat, BitVec.setWidth_eq]
  exact pulses_three he

/-! ### A word without an instruction -/

theorem pulses_four_of_none (he : e.AtBoundary) (hop : opcodeOf c.variant (opcodeField c.variant e.fetched) = none) :
    pulses 4 e = { e with
      pc := pcAfter c e.pc
      mar := e.pc
      irA := opcodeField c.variant e.fetched
      irB := operandField c.variant e.fetched
      microstep := .t4
      halted := true
      fault := .invalidOpcode (opcodeField c.variant e.fetched) } := by
  rw [pulses_add 3 1, pulses_three he, hop, if_neg (by simp), pulses_succ, pulses_zero, pulse_invalid]
  · rfl
  · exact he.1
  · exact le_refl 4
  · exact hop

theorem toBoundary_of_none (he : e.AtBoundary) (hop : opcodeOf c.variant (opcodeField c.variant e.fetched) = none) :
    toBoundary e = pulses 4 e := by
  refine toBoundary_eq_pulses he.1 (by decide) (by decide) (fun k hk0 hk4 => ?inside) (.inl ?halts)
  case inside =>
    obtain rfl | rfl | rfl : k = 1 ∨ k = 2 ∨ k = 3 := by omega
    · rw [pulses_one he]; exact ⟨he.1, by simp⟩
    · rw [pulses_two he]; exact ⟨he.1, by simp⟩
    · rw [pulses_three he, hop]; exact ⟨he.1, by simp⟩
  case halts => rw [pulses_four_of_none he hop]

/-- The opcode fields that R90 calls invalid, as the statement lists them for each variant. -/
theorem opcodeOf_none_of_base {w : BitVec 8} (h : w.toNat / 16 = 0xC ∨ w.toNat / 16 = 0xD) :
    opcodeOf .base (opcodeField .base w) = none := by
  have field : (opcodeField .base w).toNat = w.toNat / 16 := opcodeField_toNat .base w
  rw [opcodeOf_base_eq_none_iff, field]
  exact h

theorem opcodeOf_none_of_ext {w : BitVec 16}
    (h : w.toNat / 256 = 0x0C ∨ w.toNat / 256 = 0x0D ∨ 0x17 ≤ w.toNat / 256) :
    opcodeOf .ext (opcodeField .ext w) = none := by
  have field : (opcodeField .ext w).toNat = w.toNat / 256 := opcodeField_toNat .ext w
  rw [opcodeOf_ext_eq_none_iff, field]
  exact h

/-- A step at a boundary whose word has no instruction is its four pulses. -/
theorem step_of_none {s : State} (hs : s.engine.AtBoundary)
    (hop : opcodeOf s.cfg.variant (opcodeField s.cfg.variant s.fetchWord) = none) :
    step s = .next { s with engine := pulses 4 s.engine } := by
  obtain ⟨hh, hk⟩ := hs
  rw [← toBoundary_of_none ⟨hh, hk⟩ hop]
  simp [step, hh, hk, decode_of_none hop]

/-- Settles O17: a listed field has no entry in the map of its variant, so the fourth pulse finds no descriptor. -/
theorem invalidOpcodeFaultsAtItsFourthPulse : Obligations.InvalidOpcodeFaultsAtItsFourthPulse := by
  refine ⟨fun c e hh h4 hop => pulse_invalid hh h4 hop, fun s hs listed => ?_⟩
  have hop : opcodeOf s.cfg.variant (opcodeField s.cfg.variant s.fetchWord) = none := by
    obtain ⟨⟨v, base, cap, admitted⟩, engine, clock⟩ := s
    cases v with
    | base => exact opcodeOf_none_of_base listed
    | ext => exact opcodeOf_none_of_ext listed
  exact ⟨fetched_eq_fetchWord s ▸ pulses_four_of_none hs hop, step_of_none hs hop⟩

end Sys2Proof.Machine
end

section
/-! PROOF. O9: a valid opcode takes its cycle count of pulses (spec/40_pulse_engine.md R131). From microstep 3 on, the pulses
of an instruction are followed by the predicate `RunsAt`: each pulse before the last moves it on by one, because the words
there can neither fault nor halt, and the last holds ORST. -/

namespace Sys2Proof.Machine

variable {c : Config} {e : Engine c} {op : Opcode} {k : Nat}

/-- A running engine at microstep `k` of an opcode it has latched. -/
def Engine.RunsAt (e : Engine c) (op : Opcode) (k : Nat) : Prop :=
  e.halted = false ∧ opcodeOf c.variant e.irA = some op ∧ e.microstep.number = k

/-- The words of the table that stand before the last microstep of an instruction. -/
def innerWords : List ControlWord := [[.ce], [.io, .mi], [.ro, .bi], [.co, .spu]]

/-- They move the microstep on and neither halt nor load IR_A. -/
theorem applyWord_innerWords {cw : ControlWord} (hcw : cw ∈ innerWords) (h7 : e.microstep ≠ .t7) :
    (applyWord cw e).halted = e.halted ∧ (applyWord cw e).irA = e.irA
      ∧ (applyWord cw e).microstep = e.microstep.succ := by
  simp only [innerWords, List.mem_cons, List.not_mem_nil, or_false] at hcw
  obtain rfl | rfl | rfl | rfl := hcw
  · rw [applyWord_ce e h7]; exact ⟨rfl, rfl, rfl⟩
  · rw [applyWord_io_mi e h7]; exact ⟨rfl, rfl, rfl⟩
  · rw [applyWord_ro_bi e h7]; exact ⟨rfl, rfl, rfl⟩
  · rw [applyWord_co_spu e h7]; exact ⟨rfl, rfl, rfl⟩

theorem controlWord_mem_innerWords {v : Variant} {irA : BitVec v.halfWidth} {k : Microstep}
    (hop : opcodeOf v irA = some op) (h3 : 3 ≤ k.number) (hlt : k.number < (descriptor op).cycles) :
    controlWord v irA k ∈ innerWords := by
  have third : ∀ op, 3 < (descriptor op).cycles → thirdFetchWord (some op) ∈ innerWords := by
    intro op; cases op <;> decide
  have execute : ∀ op k, 4 ≤ Microstep.number k → k.number < (descriptor op).cycles → execWord op k ∈ innerWords := by
    intro op k; cases op <;> cases k <;> decide
  by_cases h4 : 4 ≤ k.number
  · rw [controlWord_of_execute h4 hop]
    exact execute op k h4 hlt
  · obtain rfl : k = .t3 := by cases k <;> simp [Microstep.number] at h3 h4 ⊢
    simp only [controlWord, hop]
    exact third op hlt

/-- HALT stands in HLT's word alone. -/
theorem halt_mem_controlWord {v : Variant} {irA : BitVec v.halfWidth} {k : Microstep}
    (h : .halt ∈ controlWord v irA k) : opcodeOf v irA = some .hlt := by
  have row : ∀ op, (∃ cw ∈ (descriptor op).execWords, Signal.halt ∈ cw) → op = .hlt := by
    intro op; cases op <;> decide
  obtain ⟨-, op, hop, hexec⟩ := mem_controlWord_execute (by decide) h
  rw [hop, row op (exists_mem_execWords hexec)]

theorem succ_number {k : Microstep} (h7 : k ≠ .t7) : k.succ.number = k.number + 1 := by
  cases k with
  | t7 => exact absurd rfl h7
  | t1 | t2 | t3 | t4 | t5 | t6 => rfl

theorem runsAt_three (he : e.AtBoundary) (hop : opcodeOf c.variant (opcodeField c.variant e.fetched) = some op) :
    (pulses 2 e).RunsAt op 3 := by
  rw [pulses_two he]
  exact ⟨he.1, hop, rfl⟩

theorem Engine.RunsAt.pulse_inner (h : e.RunsAt op k) (h3 : 3 ≤ k) (hlt : k < (descriptor op).cycles) :
    (pulse e).RunsAt op (k + 1) := by
  obtain ⟨hh, hop, rfl⟩ := h
  have h7 : e.microstep ≠ .t7 := by
    intro hk
    have := cycles_le op
    simp only [hk, Microstep.number] at hlt
    omega
  obtain ⟨halted, irA, microstep⟩ := applyWord_innerWords (controlWord_mem_innerWords hop h3 hlt) h7
  rw [pulse_valid hh hop]
  exact ⟨halted.trans hh, by rw [irA, hop], by rw [microstep, succ_number h7]⟩

/-- The pulses inside an instruction, from its third microstep to its last. -/
theorem pulses_runsAt (he : e.AtBoundary) (hop : opcodeOf c.variant (opcodeField c.variant e.fetched) = some op)
    (h2 : 2 ≤ k) (hlt : k < (descriptor op).cycles) : (pulses k e).RunsAt op (k + 1) := by
  induction k, h2 using Nat.le_induction with
  | base => exact runsAt_three he hop
  | succ k h2 ih => rw [pulses_add k 1]; exact (ih (by omega)).pulse_inner (by omega) hlt

/-- No pulse before the last of an instruction halts or stands at microstep 1. -/
theorem pulses_inside (he : e.AtBoundary) (hop : opcodeOf c.variant (opcodeField c.variant e.fetched) = some op)
    (h0 : 0 < k) (hlt : k < (descriptor op).cycles) :
    (pulses k e).halted = false ∧ (pulses k e).microstep ≠ .t1 := by
  by_cases h2 : 2 ≤ k
  · obtain ⟨hh, -, hk⟩ := pulses_runsAt he hop h2 hlt
    exact ⟨hh, fun h1 => by simp [h1, Microstep.number] at hk; omega⟩
  · obtain rfl : k = 1 := by omega
    rw [pulses_one he]
    exact ⟨he.1, by simp⟩

/-- The last pulse of an instruction raises a fault, or applies a word with ORST. -/
theorem Engine.RunsAt.pulse_last (h : e.RunsAt op (descriptor op).cycles) :
    (∃ f, f ≠ .none ∧ pulse e = e.raise f)
      ∨ (pulse e).microstep = .t1 ∧ (op ≠ .hlt → (pulse e).halted = false) := by
  obtain ⟨hh, hop, hk⟩ := h
  have last : e.microstep.number = lastMicrostep c.variant e.irA := by simp [lastMicrostep, hop, hk]
  have orst : .orst ∈ controlWord c.variant e.irA e.microstep :=
    orst_of_lastMicrostep (last ▸ three_le_lastMicrostep ..) last fun _ => ⟨op, hop⟩
  rw [pulse_valid hh hop]
  obtain raised | ⟨-, -, written⟩ := applyWord_cases (controlWord c.variant e.irA e.microstep) e
  · exact .inl raised
  · refine .inr ⟨by simp [written, (has_iff_mem ..).mpr orst], fun hne => ?_⟩
    have noHalt : .halt ∉ controlWord c.variant e.irA e.microstep := fun hhalt =>
      hne (Option.some.inj (hop.symm.trans (halt_mem_controlWord hhalt)))
    simp [written, (has_eq_false ..).mpr noHalt, hh]

/-- The pulses of an instruction, the last of them taken apart. -/
theorem pulses_cycles (he : e.AtBoundary) (hop : opcodeOf c.variant (opcodeField c.variant e.fetched) = some op) :
    ∃ last : Engine c, last.RunsAt op (descriptor op).cycles ∧ pulses (descriptor op).cycles e = pulse last := by
  have three : 3 ≤ (descriptor op).cycles := by cases op <;> decide
  obtain ⟨n, hn⟩ : ∃ n, (descriptor op).cycles = n + 1 := ⟨(descriptor op).cycles - 1, by omega⟩
  refine ⟨pulses n e, ?_, by rw [hn, pulses_add n 1]; rfl⟩
  rw [hn]
  exact pulses_runsAt he hop (by omega) (by omega)

/-- HLT's last pulse halts. -/
theorem pulses_hlt (he : e.AtBoundary) (hop : opcodeOf c.variant (opcodeField c.variant e.fetched) = some .hlt) :
    (pulses 4 e).halted = true := by
  obtain ⟨last, ⟨hh, hir, hk⟩, hp⟩ := pulses_cycles he hop
  have t4 : last.microstep = .t4 := by
    revert hk
    cases last.microstep <;> decide
  have word : controlWord c.variant last.irA last.microstep = [.halt, .orst] := by
    rw [controlWord_of_execute (by simp [t4, Microstep.number]) hir, t4]
    rfl
  rw [show pulses 4 e = pulse last from hp, pulse_valid hh hir, word, applyWord_halt_orst]

/-- Settles O9: the pulses inside the instruction, then its last. -/
theorem instructionTakesItsCycleCount : Obligations.InstructionTakesItsCycleCount := by
  refine fun c e op he hop => ⟨fun hne _ noFault => ⟨?boundary, fun k h0 hlt => (pulses_inside he hop h0 hlt).2⟩, ?hlt⟩
  case boundary =>
    obtain ⟨last, hlast, hp⟩ := pulses_cycles he hop
    rw [hp] at noFault ⊢
    obtain ⟨f, hf, raised⟩ | ⟨ends, runs⟩ := hlast.pulse_last
    · rw [raised, raise_fault] at noFault
      exact absurd noFault hf
    · exact ⟨runs hne, ends⟩
  case hlt =>
    rintro rfl
    have halts := pulses_hlt he hop
    refine ⟨fun k hk => ?_, halts, fun k => by rw [pulses_add, pulses_halted halts]⟩
    cases k with
    | zero => exact he.1
    | succ k => exact (pulses_inside he hop (Nat.succ_pos k) hk).1

end Sys2Proof.Machine
end

section
/-! PROOF. O6, O7 and O8: the step and the pulses (spec/40_pulse_engine.md R120, R130). A meaning runs its row's words from the
latched state, which is where two pulses lead; the number of pulses is the cycle count, and K9 bounds it from any state. -/

namespace Sys2Proof.Machine

variable {c : Config} {e : Engine c}

/-- Settles O6: the hypotheses are those of the branch of `step` that runs the meaning. -/
theorem stepRunsTheDecodedInstruction : Obligations.StepRunsTheDecodedInstruction :=
  fun _ _ hs _ hi => step_of_decode hs hi

/-! ### The grain of a step -/

theorem instrWords_length (op : Opcode) : 2 + (instrWords op).length = (descriptor op).cycles := by cases op <;> rfl

/-- The pulses to the next boundary of a valid opcode are its cycle count, also where the last of them faults. -/
theorem toBoundary_of_some {op : Opcode} (he : e.AtBoundary)
    (hop : opcodeOf c.variant (opcodeField c.variant e.fetched) = some op) :
    toBoundary e = pulses (descriptor op).cycles e := by
  have lengths := instrWords_length op
  refine toBoundary_eq_pulses he.1 (by omega) ((cycles_le op).trans (by decide))
    (fun k h0 hlt => pulses_inside he hop h0 hlt) ?_
  obtain ⟨last, hlast, hp⟩ := pulses_cycles he hop
  rw [hp]
  obtain ⟨f, -, raised⟩ | ⟨ends, -⟩ := hlast.pulse_last
  · exact .inl (by rw [raised, raise_halted])
  · exact .inr ends

/-- The meaning of the decoded instruction is the pulses of its cycle count. -/
theorem exec_eq_pulses {s : State} {i : Instr} (hs : s.engine.AtBoundary)
    (hi : decode s.cfg.variant s.fetchWord = .ok i) :
    exec i s = .next { s with engine := pulses (descriptor i.opcode).cycles s.engine } := by
  obtain ⟨hwf, hword⟩ := encodeAfterDecodeIsIdentity _ _ _ hi
  obtain ⟨hop, hx⟩ := wellFormed_iff.mp hwf
  obtain ⟨hh, hk⟩ := hs
  have latches : pulses 2 s.engine = latched i.opcode.code i.operand s.engine :=
    pulses_two_of_fetch hh hk hop hx (by rw [instr_opcode_operand]; exact hword.symm)
  have found : opcodeOf s.cfg.variant (latched i.opcode.code i.operand s.engine).irA = some i.opcode := opcodeOf_code hop
  rw [exec_running hh hop, runWords_eq_pulses found (instrWords_matchesTable found), ← latches, ← pulses_add,
    instrWords_length]

/-- Settles O7, branch by branch of the step. -/
theorem stepIsThePulsesToTheNextBoundary : Obligations.StepIsThePulsesToTheNextBoundary := by
  intro s
  obtain ⟨hh, hs⟩ | ⟨i, he, hi, hs⟩ | ⟨-, hs⟩ := step_cases s
  · rw [hs, toBoundary, if_pos hh]
  · obtain ⟨op, hop, hinstr⟩ := decode_eq_ok_iff.mp hi
    rw [hs, exec_eq_pulses he hi, toBoundary_of_some he hop, ← hinstr, opcode_instr]
  · exact hs

/-! ### Every step ends at a boundary -/

/-- A pulse of a running engine halts, ends the instruction or moves the microstep on: at the last microstep a word without
ORST fails K9. -/
theorem pulse_progress (hh : e.halted = false) :
    ((pulse e).halted = true ∨ (pulse e).microstep = .t1) ∨ (pulse e).microstep.number = e.microstep.number + 1 := by
  obtain ⟨halted, -⟩ | ⟨-, -, -, hp⟩ | ⟨-, -, hp⟩ := pulse_cases e
  · simp [hh] at halted
  · exact .inl (.inl (by rw [hp, raise_halted]))
  · obtain ⟨f, -, raised⟩ | ⟨passed, -, written⟩ := applyWord_cases (controlWord c.variant e.irA e.microstep) e
    · exact .inl (.inl (by rw [hp, raised, raise_halted]))
    · rw [hp, written, writeBack_microstep]
      cases horst : (controlWord c.variant e.irA e.microstep).has .orst with
      | true => exact .inl (.inr rfl)
      | false =>
        have k9 := List.find?_eq_none.mp passed .k9 (by decide)
        exact .inr (succ_number (by simpa [checkFails, horst] using k9))

/-- As many pulses as there are microsteps left reach a halt or a boundary. -/
theorem settle_ends (n : Nat) (e : Engine c) (h : 8 ≤ n + e.microstep.number) :
    (settle n e).halted = true ∨ (settle n e).microstep = .t1 := by
  have last (k : Microstep) : k.number ≤ 7 := by cases k <;> decide
  induction n generalizing e with
  | zero => exact absurd (last e.microstep) (by omega)
  | succ n ih =>
    by_cases ended : e.halted = true ∨ e.microstep = .t1
    · rwa [settle_done ended]
    · obtain ⟨running, inside⟩ := not_or.mp ended
      rw [settle, if_neg (by simp [running, inside])]
      obtain done | moved := pulse_progress (Bool.eq_false_iff.mpr running)
      · rwa [settle_done done]
      · exact ih _ (by omega)

theorem toBoundary_ends (e : Engine c) : (toBoundary e).halted = true ∨ (toBoundary e).microstep = .t1 := by
  have first (k : Microstep) : 1 ≤ k.number := by cases k <;> decide
  cases hh : e.halted with
  | true => exact .inl (by rw [toBoundary, if_pos hh, hh])
  | false =>
    rw [toBoundary, hh, if_neg (by decide)]
    obtain done | moved := pulse_progress hh
    · rwa [settle_done done]
    · exact settle_ends 6 _ (by have := first e.microstep; omega)

/-- Settles O8: a step is `toBoundary`, which ends there. -/
theorem stepEndsHaltedOrAtABoundary : Obligations.StepEndsHaltedOrAtABoundary :=
  fun s => ⟨_, stepIsThePulsesToTheNextBoundary s, toBoundary_ends s.engine⟩

end Sys2Proof.Machine
end

section
/-! PROOF. O14, O56, O57 and O58: the clock driver (spec/40_pulse_engine.md R125, R135 to R137). `runPulses` is `pulses`, which
add up and stand still on a halted engine; the floors of two advances add up because the accumulator keeps the fraction. -/

namespace Sys2Proof.Machine

/-! ### A halted engine -/

section Halted

variable {s : State} (hh : s.engine.halted = true)
include hh

theorem tick_halted : s.tick = .ran s 0 [] := by
  simp [State.tick, State.ranPulses, runPulses, hh]

theorem advance_halted {elapsed : Rat} (h : 0 ≤ elapsed) : s.advance elapsed = .ran s 0 [] := by
  rw [State.advance, if_neg (not_lt.mpr h), if_pos hh]

theorem exec_halted {i : Instr} (hop : i.opcode.existsIn s.cfg.variant = true) : exec i s = .next s := by
  rw [exec_eq_runInstr hop, State.runInstr, if_pos hh]

end Halted

/-- Settles O14, one entry point at a time. -/
theorem haltedEngineIsInert : Obligations.HaltedEngineIsInert := fun _ hh =>
  ⟨pulse_halted hh, if_pos hh, tick_halted hh, fun _ hop => exec_halted hh hop, fun _ h => advance_halted hh h⟩

/-! ### configure and tick -/

theorem tick_running {s : State} (hh : s.engine.halted = false) :
    s.tick = .ran { s with engine := pulse s.engine } 1 ((pulse s.engine).events.drop s.engine.events.length) := by
  simp [State.tick, State.ranPulses, runPulses, hh]

/-- Settles O58: `configure` tests the frequency, and `tick` is one pulse at most. -/
theorem configureAndTick : Obligations.ConfigureAndTick :=
  ⟨fun _ _ => ⟨fun h => if_neg (not_lt.mpr h), fun h => if_pos h⟩, fun _ hh => tick_running hh,
    fun _ hh => ⟨tick_halted hh, fun _ h => advance_halted hh h⟩⟩

/-! ### advance -/

/-- The count of `runPulses` is where the engine halts, or all the pulses asked for. -/
theorem runPulses_count {c : Config} (n : Nat) (e : Engine c) :
    (runPulses n e).2 ≤ n ∧ (∀ j, j < (runPulses n e).2 → (pulses j e).halted = false)
      ∧ ((runPulses n e).2 < n → (pulses (runPulses n e).2 e).halted = true) := by
  induction n generalizing e with
  | zero => simp [runPulses]
  | succ n ih =>
    cases hh : e.halted with
    | true => simp [runPulses, hh]
    | false =>
      obtain ⟨bounded, runs, halts⟩ := ih (pulse e)
      simp only [runPulses, hh, Bool.false_eq_true, if_false]
      refine ⟨Nat.succ_le_succ bounded, fun j hj => ?_, fun hlt => halts (Nat.lt_of_succ_lt_succ hlt)⟩
      cases j with
      | zero => exact hh
      | succ j => exact runs j (Nat.lt_of_succ_lt_succ hj)

/-- What a call that runs pulses answers, in terms of `pulses`. -/
theorem ranPulses_eq (n : Nat) (clock : Clock) (s : State) :
    s.ranPulses n clock = .ran { s with engine := pulses n s.engine, clock := clock } (runPulses n s.engine).2
      ((pulses n s.engine).events.drop s.engine.events.length) := by
  rw [← runPulses_fst]
  rfl

theorem advance_running {s : State} (hh : s.engine.halted = false) {elapsed : Rat} (h : 0 ≤ elapsed) :
    s.advance elapsed = s.ranPulses (s.clock.due elapsed).1 (s.clock.due elapsed).2 := by
  rw [State.advance, if_neg (not_lt.mpr h), if_neg (Bool.eq_false_iff.mp hh)]

/-- Settles O57, clause by clause of `advance`; the count is that of `runPulses`. -/
theorem advanceRunsThePulsesDue : Obligations.AdvanceRunsThePulsesDue := by
  rintro s t due n rfl rfl
  refine ⟨fun negative _ => if_pos negative, fun h hh => advance_halted hh h, fun h hh => ⟨_, ?ran, runPulses_count _ _⟩⟩
  case ran => exact (advance_running hh h).trans (ranPulses_eq ..)

/-! ### Advancing in two parts -/

theorem afterCall_advance_halted {s : State} (hh : s.engine.halted = true) {elapsed : Rat} (h : 0 ≤ elapsed) :
    s.afterCall (.advance elapsed) = s := by
  rw [State.afterCall, advance_halted hh h, HostReply.stateOr]

theorem afterCall_advance_running {s : State} (hh : s.engine.halted = false) {elapsed : Rat} (h : 0 ≤ elapsed) :
    s.afterCall (.advance elapsed) = { s with
      engine := pulses (s.clock.due elapsed).1 s.engine
      clock := (s.clock.due elapsed).2 } := by
  rw [State.afterCall, advance_running hh h, ranPulses_eq, HostReply.stateOr]

/-- The pulses due in two parts are those due at once, with the same fraction left: the first part takes a whole number out
of the accumulator. -/
theorem due_add {k : Clock} (hk : k.Inv) {t u : Rat} (ht : 0 ≤ t) (hu : 0 ≤ u) :
    (k.due t).1 + ((k.due t).2.due u).1 = (k.due (t + u)).1 ∧ ((k.due t).2.due u).2 = (k.due (t + u)).2 := by
  obtain ⟨hhz, hacc, -⟩ := hk
  have due (k : Clock) (t : Rat) :
      k.due t = (⌊k.acc + t * k.targetHz⌋.toNat, { k with acc := Int.fract (k.acc + t * k.targetHz) }) := rfl
  have whole : k.acc + (t + u) * k.targetHz
      = Int.fract (k.acc + t * k.targetHz) + u * k.targetHz + (⌊k.acc + t * k.targetHz⌋ : Int) := by
    rw [Int.fract]; ring
  have first : 0 ≤ ⌊k.acc + t * k.targetHz⌋ := Int.floor_nonneg.mpr (by positivity)
  have second : 0 ≤ ⌊Int.fract (k.acc + t * k.targetHz) + u * k.targetHz⌋ :=
    Int.floor_nonneg.mpr (add_nonneg (Int.fract_nonneg _) (by positivity))
  simp only [due, whole, Int.floor_add_intCast, Int.fract_add_intCast, and_true]
  omega

/-- Settles O56: the pulses of the two calls add up to those of the one. After a halt in the first call none is left to run,
and the clock driver alone can differ. -/
theorem advanceInTwoPartsIsOneAdvance : Obligations.AdvanceInTwoPartsIsOneAdvance := by
  intro s t u hinv ht hu
  have htu := add_nonneg ht hu
  simp only [State.afterCalls, List.foldl_cons, List.foldl_nil]
  cases hh : s.engine.halted with
  | true =>
    rw [afterCall_advance_halted hh ht, afterCall_advance_halted hh hu, afterCall_advance_halted hh htu]
    exact ⟨s.engine, s.clock, s.clock, rfl, rfl, fun _ => rfl⟩
  | false =>
    obtain ⟨count, clock⟩ := due_add hinv.2 ht hu
    rw [afterCall_advance_running hh ht, afterCall_advance_running hh htu, ← count, ← clock, pulses_add]
    cases hfirst : (pulses (s.clock.due t).1 s.engine).halted with
    | true =>
      rw [afterCall_advance_halted hfirst hu, pulses_halted hfirst]
      exact ⟨_, _, _, rfl, rfl, nofun⟩
    | false =>
      rw [afterCall_advance_running hfirst hu]
      exact ⟨_, _, _, rfl, rfl, fun _ => rfl⟩

end Sys2Proof.Machine
end

section
/-! PROOF. Support for the instruction statements: the row and encoding of an opcode (`TableRow`), and the completion of an
instruction (`CompletesAs`) from the one thing that differs between instructions, the engine its words leave. -/

namespace Sys2Proof.Machine

/-- Every opcode has the row the model's tables give it: `{code, operand}` follows from the fields of a word. -/
theorem tableRow_descriptor (op : Opcode) :
    TableRow op op.code (descriptor op).operandKind (descriptor op).cycles (descriptor op).execWords
      (descriptor op).flagAffecting := by
  refine ⟨⟨rfl, rfl, rfl, rfl, rfl⟩, fun v x hop hx => ⟨?_, ?_⟩⟩
  · rw [encode, opcode_instr, operand_instr]
    exact joinFields_toNat (code_lt hop) hx
  · exact decodeAfterEncodeIsIdentity v _ (wellFormed_iff.mpr (by simp [hop, hx]))

/-- An opcode that BASE has exists in both variants (spec/30_encoding.md R88). -/
theorem existsIn_of_base {op : Opcode} (h : op.existsIn .base = true) (v : Variant) : op.existsIn v = true := by
  cases v with
  | base => exact h
  | ext => rfl

theorem opcodeOf_of_decode {v : Variant} {w : BitVec v.wordWidth} {i : Instr} (h : decode v w = .ok i) :
    opcodeOf v (opcodeField v w) = some i.opcode := by
  obtain ⟨op, found, rfl⟩ := decode_eq_ok_iff.mp h
  rw [found, opcode_instr]

/-- An instruction of the variant completes, at its cycle count, with what its words leave of a running engine: the pulses
of its fetched word give what `exec` gives, and none before the last ends it. -/
theorem completesAs_runWords {i : Instr} {s : State} {r : Engine s.cfg} (hh : s.engine.halted = false)
    (hop : i.opcode.existsIn s.cfg.variant = true)
    (hr : runWords (instrWords i.opcode) (latched i.opcode.code i.operand s.engine) = r) :
    CompletesAs i s (descriptor i.opcode).cycles r := by
  have answers : exec i s = .next { s with engine := r } := by rw [exec_running hh hop, hr]
  refine ⟨answers, fun hk hwf hword => ?_⟩
  have decodes : decode s.cfg.variant s.fetchWord = .ok i := by rw [hword, decodeAfterEncodeIsIdentity _ _ hwf]
  have same := (exec_eq_pulses ⟨hh, hk⟩ decodes).symm.trans answers
  obtain ⟨-, engines, -⟩ := State.mk.inj (Host.Outcome.next.inj same)
  exact ⟨eq_of_heq engines, fun _ h0 hlt => pulses_inside ⟨hh, hk⟩ (opcodeOf_of_decode decodes) h0 hlt⟩

end Sys2Proof.Machine
end

section
/-! PROOF. O28, O29 and O30: the loads and the store (spec/41_load_store.md R150 to R152). All three exist in both variants;
what their words leave is found word by word, for the store by `runWords_sta`. -/

namespace Sys2Proof.Machine

variable {c : Config}

theorem runWords_lda {e : Engine c} (hh : e.halted = false) (a : Operand) :
    runWords (instrWords .lda) (latched Opcode.lda.code a e) = { afterFetch (.lda a) e with
      a := e.mem.read (operandOn c a).toNat
      mar := operandOn c a } := by
  show runWords [[.ce], [.io, .mi], [.ro, .ai, .orst]] _ = _
  rw [runWords_cons, applyWord_ce, runWords_cons, applyWord_io_mi, runWords_cons, applyWord_ro_ai_orst, runWords_nil]
  · rfl
  all_goals simp [hh, Microstep.succ]

/-- The bus zero-extends IR_B, so the immediate keeps its value in A (spec/00_scope.md R9). -/
theorem runWords_ldi {e : Engine c} (hh : e.halted = false) (v : Operand) :
    runWords (instrWords .ldi) (latched Opcode.ldi.code v e) = { afterFetch (.ldi v) e with
      a := BitVec.ofNat c.wordWidth (operandOn c v).toNat } := by
  show runWords [[.ce], [.io, .ai, .orst]] _ = _
  rw [runWords_cons, applyWord_ce, runWords_cons, applyWord_io_ai_orst, runWords_nil, BitVec.ofNat_toNat]
  · rfl
  all_goals simp [hh]

/-- Settles O28: the second execute word reads memory at the MAR that the first one loaded. -/
theorem ldaLoadsTheNamedWord : Obligations.LdaLoadsTheNamedWord :=
  ⟨tableRow_descriptor .lda, fun _ a hh => completesAs_runWords hh (existsIn_of_base rfl _) (runWords_lda hh a)⟩

/-- Settles O29, from the engine that O50 and O53 rest on too. -/
theorem staStoresAtTheNamedAddress : Obligations.StaStoresAtTheNamedAddress :=
  ⟨tableRow_descriptor .sta, fun _ a hh => completesAs_runWords hh (existsIn_of_base rfl _) (runWords_sta hh a)⟩

/-- Settles O30: MAR stays at the instruction's own address. -/
theorem ldiLoadsItsOperandZeroExtended : Obligations.LdiLoadsItsOperandZeroExtended :=
  ⟨tableRow_descriptor .ldi, fun _ v hh => completesAs_runWords hh (existsIn_of_base rfl _) (runWords_ldi hh v)⟩

end Sys2Proof.Machine
end

section
/-! PROOF. O31, O32, O33 and O34: ADD, SUB and the shifts (spec/42_arithmetic.md R160 to R163). All four exist in both
variants. ADD and SUB differ in their last word alone, and so do SHL and SHR, so the words before it are run once for each
pair; the last word's ALU or shift is then read as numbers. -/

namespace Sys2Proof.Machine

variable {c : Config}

/-! ### ADD and SUB -/

/-- The three words that ADD and SUB share take the named word into B, on the way to their last pulse. -/
theorem runWords_named_word {e : Engine c} (hh : e.halted = false) (code : Nat) (a : Operand) (cw : ControlWord) :
    runWords [[.ce], [.io, .mi], [.ro, .bi], cw] (latched code a e) = applyWord cw { latched code a e with
      pc := e.pc + 1
      mar := operandOn c a
      b := e.mem.read (operandOn c a).toNat
      microstep := .t6 } := by
  rw [runWords_cons, applyWord_ce, runWords_cons, applyWord_io_mi, runWords_cons, applyWord_ro_bi, runWords_cons,
    runWords_nil]
  · rfl
  all_goals simp [hh, Microstep.succ]

theorem aluAdd_zero {w : Nat} (a b : BitVec w) : (aluAdd a b).zero = decide ((a.toNat + b.toNat) % 2 ^ w = 0) :=
  decide_eq_decide.mpr (ofNat_eq_zero_iff _)

theorem aluSub_zero {w : Nat} (a b : BitVec w) : (aluSub a b).zero = decide (a = b) :=
  decide_eq_decide.mpr (aluSub_result_eq_zero a b)

theorem runWords_add {e : Engine c} (hh : e.halted = false) (a : Operand) {x : BitVec c.wordWidth}
    (hx : x = e.mem.read (operandOn c a).toNat) :
    runWords (instrWords .add) (latched Opcode.add.code a e) = { afterFetch (.add a) e with
      b := x
      a := BitVec.ofNat c.wordWidth ((e.a.toNat + x.toNat) % 2 ^ c.wordWidth)
      carry := decide (2 ^ c.wordWidth - 1 < e.a.toNat + x.toNat)
      zero := decide ((e.a.toNat + x.toNat) % 2 ^ c.wordWidth = 0)
      mar := operandOn c a } := by
  show runWords [[.ce], [.io, .mi], [.ro, .bi], [.eo, .ai, .fi, .orst]] _ = _
  rw [runWords_named_word hh, applyWord_eo_ai_fi_orst, aluAdd_zero, ofNat_mod_two_pow, hx]
  rfl

theorem runWords_sub {e : Engine c} (hh : e.halted = false) (a : Operand) {x : BitVec c.wordWidth}
    (hx : x = e.mem.read (operandOn c a).toNat) :
    runWords (instrWords .sub) (latched Opcode.sub.code a e) = { afterFetch (.sub a) e with
      b := x
      a := BitVec.ofNat c.wordWidth
        (if x.toNat ≤ e.a.toNat then e.a.toNat - x.toNat else e.a.toNat + 2 ^ c.wordWidth - x.toNat)
      carry := decide (x.toNat ≤ e.a.toNat)
      zero := decide (e.a = x)
      mar := operandOn c a } := by
  show runWords [[.ce], [.io, .mi], [.ro, .bi], [.eo, .ai, .su, .fi, .orst]] _ = _
  rw [runWords_named_word hh, applyWord_eo_ai_su_fi_orst, aluSub_zero, aluSub_result, hx]
  rfl

/-- Settles O31: the last word adds the B that the word before it loaded, and ORST ends the instruction. -/
theorem addAddsTheNamedWord : Obligations.AddAddsTheNamedWord :=
  ⟨tableRow_descriptor .add,
    fun _ a _ hh hx => completesAs_runWords hh (existsIn_of_base rfl _) (runWords_add hh a hx)⟩

/-- Settles O32: as ADD, with SU in the last word; a borrow takes 2^W in. -/
theorem subSubtractsTheNamedWord : Obligations.SubSubtractsTheNamedWord :=
  ⟨tableRow_descriptor .sub,
    fun _ a _ hh hx => completesAs_runWords hh (existsIn_of_base rfl _) (runWords_sub hh a hx)⟩

/-! ### SHL and SHR -/

/-- An instruction of one execute word applies it to the fetched engine. -/
theorem runWords_one_execute_word {e : Engine c} (hh : e.halted = false) (code : Nat) (x : Operand) (cw : ControlWord) :
    runWords [[.ce], cw] (latched code x e) = applyWord cw { latched code x e with
      pc := e.pc + 1
      microstep := .t4 } := by
  rw [runWords_cons, applyWord_ce, runWords_cons, runWords_nil]
  · rfl
  all_goals simp [hh]

theorem runWords_shl {e : Engine c} (hh : e.halted = false) (x : Operand) :
    runWords (instrWords .shl) (latched Opcode.shl.code x e) = { afterFetch (.shl x) e with
      a := BitVec.ofNat c.wordWidth (e.a.toNat * 2 % 2 ^ c.wordWidth)
      carry := decide (2 ^ (c.wordWidth - 1) ≤ e.a.toNat)
      zero := decide (e.a.toNat * 2 % 2 ^ c.wordWidth = 0) } := by
  show runWords [[.ce], [.sl, .orst]] _ = _
  rw [runWords_one_execute_word hh, (shiftSignalsShiftA c _).1]
  rfl

theorem runWords_shr {e : Engine c} (hh : e.halted = false) (x : Operand) :
    runWords (instrWords .shr) (latched Opcode.shr.code x e) = { afterFetch (.shr x) e with
      a := BitVec.ofNat c.wordWidth (e.a.toNat / 2)
      carry := decide (e.a.toNat % 2 = 1)
      zero := decide (e.a.toNat / 2 = 0) } := by
  show runWords [[.ce], [.sr, .orst]] _ = _
  rw [runWords_one_execute_word hh, (shiftSignalsShiftA c _).2]
  rfl

/-- Settles O33: the shift signal of O26 in the one execute pulse. -/
theorem shlShiftsALeft : Obligations.ShlShiftsALeft :=
  ⟨tableRow_descriptor .shl, fun _ x hh => completesAs_runWords hh (existsIn_of_base rfl _) (runWords_shl hh x)⟩

/-- Settles O34: as SHL, with the logical right shift of O26. -/
theorem shrShiftsARight : Obligations.ShrShiftsARight :=
  ⟨tableRow_descriptor .shr, fun _ x hh => completesAs_runWords hh (existsIn_of_base rfl _) (runWords_shr hh x)⟩

end Sys2Proof.Machine
end

section
/-! PROOF. O35, O36, O37, O38 and O39: the jumps, CAL and RET (spec/43_control_transfer.md R170 to R174). What each one's words
leave is found from the pulse of its last word; CAL's is `runWords_cal`, and RET's has two ends, a jump and a fault. -/

namespace Sys2Proof.Machine

variable {c : Config}

/-! ### The jumps -/

theorem runWords_jmp {e : Engine c} (hh : e.halted = false) (t : Operand) :
    runWords (instrWords .jmp) (latched Opcode.jmp.code t e) = { afterFetch (.jmp t) e with pc := operandOn c t } := by
  show runWords [[.ce], [.io, .ju, .orst]] _ = _
  rw [runWords_one_execute_word hh, applyWord_io_ju_orst]
  rfl

theorem runWords_jc {e : Engine c} (hh : e.halted = false) (t : Operand) :
    runWords (instrWords .jc) (latched Opcode.jc.code t e) = { afterFetch (.jc t) e with
      pc := if e.carry = true then operandOn c t else e.pc + 1 } := by
  show runWords [[.ce], [.io, .jcy, .orst]] _ = _
  rw [runWords_one_execute_word hh, applyWord_io_jcy_orst]
  rfl

theorem runWords_jz {e : Engine c} (hh : e.halted = false) (t : Operand) :
    runWords (instrWords .jz) (latched Opcode.jz.code t e) = { afterFetch (.jz t) e with
      pc := if e.zero = true then operandOn c t else e.pc + 1 } := by
  show runWords [[.ce], [.io, .jzr, .orst]] _ = _
  rw [runWords_one_execute_word hh, applyWord_io_jzr_orst]
  rfl

/-- Settles O35: the one execute word loads PC from the operand field. -/
theorem jmpSetsPc : Obligations.JmpSetsPc :=
  ⟨tableRow_descriptor .jmp, fun _ t hh => completesAs_runWords hh (existsIn_of_base rfl _) (runWords_jmp hh t)⟩

/-- Settles O36: the load condition of JCY is the carry latched before the pulse. -/
theorem jcJumpsOnTheLatchedCarry : Obligations.JcJumpsOnTheLatchedCarry :=
  ⟨tableRow_descriptor .jc, fun _ t hh => completesAs_runWords hh (existsIn_of_base rfl _) (runWords_jc hh t)⟩

/-- Settles O37: as JC, on the latched zero. -/
theorem jzJumpsOnTheLatchedZero : Obligations.JzJumpsOnTheLatchedZero :=
  ⟨tableRow_descriptor .jz, fun _ t hh => completesAs_runWords hh (existsIn_of_base rfl _) (runWords_jz hh t)⟩

/-! ### CAL and RET -/

/-- EXT has every opcode (spec/30_encoding.md R88). -/
theorem existsIn_of_ext {v : Variant} (hv : v = .ext) (op : Opcode) : op.existsIn v = true := by
  rw [hv]
  rfl

/-- The return address on the bus: the following address, modulo M. -/
theorem onBus_pcAfter (pc : BitVec c.halfWidth) :
    onBus c (pcAfter c pc) = BitVec.ofNat c.wordWidth ((pc.toNat + 1) % c.memSize) := by
  rw [← pcAfter_toNat, BitVec.ofNat_toNat]
  rfl

/-- RET where the word under the decremented stack pointer is an address. -/
theorem runWords_ret {e : Engine c} (hh : e.halted = false) (x : Operand) (hv : (poppedWord e).toNat < c.memSize) :
    runWords (instrWords .ret) (latched Opcode.ret.code x e) = { afterFetch (.ret x) e with
      pc := BitVec.ofNat c.halfWidth (poppedWord e).toNat
      sp := spDown c e.sp } := by
  show runWords [[.ce], [.spo, .ju, .orst]] _ = _
  rw [runWords_one_execute_word hh, BitVec.ofNat_toNat]
  exact applyWord_spo_ju_orst _ hv

/-- RET where it is none: the last pulse writes nothing. -/
theorem runWords_ret_fault {e : Engine c} (hh : e.halted = false) (x : Operand) (hv : c.memSize ≤ (poppedWord e).toNat) :
    runWords (instrWords .ret) (latched Opcode.ret.code x e) = { afterFetch (.ret x) e with
      microstep := .t4
      halted := true
      fault := .addressOutOfRange (poppedWord e) } := by
  show runWords [[.ce], [.spo, .ju, .orst]] _ = _
  rw [runWords_one_execute_word hh]
  exact applyWord_spo_ju_orst_fault _ hv

/-- Settles O38, from the engine that O50 rests on too; PC is pushed after its increment. -/
theorem calPushesTheReturnAddressAndJumps : Obligations.CalPushesTheReturnAddressAndJumps :=
  ⟨tableRow_descriptor .cal, fun _ t hh hext =>
    completesAs_runWords hh (existsIn_of_ext hext _) ((runWords_cal hh t).trans (by rw [onBus_pcAfter]; rfl))⟩

/-- Settles O39: the word of the statement is the popped word, whose range decides between the two ends. -/
theorem retPopsPcOrFaults : Obligations.RetPopsPcOrFaults := by
  refine ⟨tableRow_descriptor .ret, fun s x v hh hext hv => ?_⟩
  obtain rfl : v = poppedWord s.engine := hv
  exact ⟨fun inside => completesAs_runWords hh (existsIn_of_ext hext _) (runWords_ret hh x inside),
    fun outside => completesAs_runWords hh (existsIn_of_ext hext _) (runWords_ret_fault hh x outside)⟩

end Sys2Proof.Machine
end

section
/-! PROOF. O52: a CAL whose target holds a RET comes back (spec/43_control_transfer.md R176, first sentence). The stack pointer
goes up and down again (`spDown_spUp`), so RET pops the word that CAL pushed. -/

namespace Sys2Proof.Machine

variable {c : Config}

/-- A step at a boundary whose word decodes leaves what the words of the instruction's row leave. -/
theorem step_runWords {s : State} {i : Instr} {r : Engine s.cfg} (hs : s.engine.AtBoundary)
    (hi : decode s.cfg.variant s.fetchWord = .ok i)
    (hr : runWords (instrWords i.opcode) (latched i.opcode.code i.operand s.engine) = r) :
    step s = .next { s with engine := r } := by
  rw [step_of_decode hs hi, exec_running hs.1 (existsIn_of_decode hi), hr]

/-- The engine that a CAL leaves (R173), in the form of `runWords_cal`. -/
def Engine.called (t : Operand) (e : Engine c) : Engine c :=
  { afterFetch (.cal t) e with
    mem := e.mem.write (stackAddr c e.sp) (onBus c (pcAfter c e.pc))
    sp := spUp c e.sp
    pc := operandOn c t }

theorem called_atBoundary {e : Engine c} (hh : e.halted = false) (t : Operand) : (e.called t).AtBoundary := ⟨hh, rfl⟩

theorem spDown_called (t : Operand) (e : Engine c) : spDown c (e.called t).sp = e.sp := spDown_spUp e.sp

/-- After a CAL the stack pops its return address. -/
theorem poppedWord_called {e : Engine c} (hwf : Memory.wf c.memSize e.mem = true) (t : Operand) :
    poppedWord (e.called t) = onBus c (pcAfter c e.pc) := by
  rw [poppedWord, spDown_called]
  exact read_write_same hwf _ _

/-- A step that fetches a CAL leaves the called engine. -/
theorem step_cal {s : State} {t : Operand} (hs : s.engine.AtBoundary)
    (hcal : decode s.cfg.variant s.fetchWord = .ok (.cal t)) :
    step s = .next { s with engine := s.engine.called t } :=
  step_runWords hs hcal (runWords_cal hs.1 t)

/-- A step that fetches a RET whose popped word is a value of PC on the bus makes it PC. -/
theorem step_ret {s : State} {x : Operand} {pc : BitVec s.cfg.halfWidth} (hs : s.engine.AtBoundary)
    (hret : decode s.cfg.variant s.fetchWord = .ok (.ret x)) (hpop : poppedWord s.engine = onBus s.cfg pc) :
    step s = .next { s with engine := { afterFetch (.ret x) s.engine with
      pc := pc
      sp := spDown s.cfg s.engine.sp } } := by
  have isAddress : (poppedWord s.engine).toNat < s.cfg.memSize := by simp [hpop]
  have jumps := runWords_ret hs.1 x isAddress
  rw [hpop, onBus_toNat, BitVec.ofNat_toNat, BitVec.setWidth_eq] at jumps
  exact step_runWords hs hret jumps

/-- Settles O52: the CAL's step stands at the RET's boundary, and the RET pops the return address the CAL pushed. -/
theorem callThenReturnComesBack : Obligations.CallThenReturnComesBack := by
  intro s t x _ hs hwf hcal hret
  have running : s.engine.halted = false := hs.1
  have returns := step_ret (s := { s with engine := s.engine.called t }) (called_atBoundary running t) hret
    (poppedWord_called hwf t)
  exact ⟨_, _, step_cal hs hcal, returns, spDown_called t _, rfl, running, rfl⟩

end Sys2Proof.Machine
end

section
/-! PROOF. O40, O41 and O42: the stack instructions of EXT (spec/44_stack.md R180 to R183). Each has one execute word; what
PSH's leaves is `runWords_psh`, which O50 rests on too. -/

namespace Sys2Proof.Machine

variable {c : Config}

/-- POP reads the word under the decremented stack pointer, whatever its value: A takes any word, unlike RET's PC. -/
theorem runWords_pop {e : Engine c} (hh : e.halted = false) (x : Operand) :
    runWords (instrWords .pop) (latched Opcode.pop.code x e) = { afterFetch (.pop x) e with
      a := poppedWord e
      sp := spDown c e.sp } := by
  show runWords [[.ce], [.spo, .ai, .orst]] _ = _
  rw [runWords_one_execute_word hh, applyWord_spo_ai_orst]
  rfl

theorem runWords_lsp {e : Engine c} (hh : e.halted = false) (x : Operand) :
    runWords (instrWords .lsp) (latched Opcode.lsp.code x e) = { afterFetch (.lsp x) e with sp := spOf c e.a } := by
  show runWords [[.ce], [.ao, .spl, .orst]] _ = _
  rw [runWords_one_execute_word hh, applyWord_ao_spl_orst]
  rfl

/-- Settles O40: the push is at the stack pointer before its increment. -/
theorem pshPushesA : Obligations.PshPushesA :=
  ⟨tableRow_descriptor .psh, fun _ x hh hext => completesAs_runWords hh (existsIn_of_ext hext _) (runWords_psh hh x)⟩

/-- Settles O41: the word read is the popped word. -/
theorem popPopsIntoA : Obligations.PopPopsIntoA :=
  ⟨tableRow_descriptor .pop, fun _ x hh hext => completesAs_runWords hh (existsIn_of_ext hext _) (runWords_pop hh x)⟩

/-- Settles O42: the stack pointer of the statement is the one that SPL loads. -/
theorem lspLoadsSpModuloCapacity : Obligations.LspLoadsSpModuloCapacity := by
  refine ⟨tableRow_descriptor .lsp, fun s x sp hh hext hsp => ?_⟩
  obtain rfl : sp = spOf s.cfg s.engine.a := Fin.ext hsp
  exact completesAs_runWords hh (existsIn_of_ext hext _) (runWords_lsp hh x)

end Sys2Proof.Machine
end

section
/-! PROOF. O43, O44, O45 and O46: input and output (spec/45_io.md R191, R192, R199, R200). Each has one execute word, which
moves a word between A and a register of the host's side: KEY into A, A into the others, where the pulse emits its event
whatever the register held. OUT and KEY exist in both variants, DSD and DSC in EXT. -/

namespace Sys2Proof.Machine

variable {c : Config}

theorem runWords_out {e : Engine c} (hh : e.halted = false) (x : Operand) :
    runWords (instrWords .out) (latched Opcode.out.code x e) = { afterFetch (.out x) e with
      out := e.a
      events := e.events ++ [.output e.a] } := by
  show runWords [[.ce], [.ao, .oi, .orst]] _ = _
  rw [runWords_one_execute_word hh, applyWord_ao_oi_orst]
  rfl

/-- KO zero-extends the key code onto the bus, so A takes its value (spec/00_scope.md R9). -/
theorem runWords_key {e : Engine c} (hh : e.halted = false) (x : Operand) :
    runWords (instrWords .key) (latched Opcode.key.code x e) = { afterFetch (.key x) e with
      a := BitVec.ofNat c.wordWidth e.key.toNat } := by
  show runWords [[.ce], [.ko, .ai, .orst]] _ = _
  rw [runWords_one_execute_word hh, applyWord_ko_ai_orst, BitVec.ofNat_toNat]
  rfl

theorem runWords_dsd {e : Engine c} (hh : e.halted = false) (x : Operand) :
    runWords (instrWords .dsd) (latched Opcode.dsd.code x e) = { afterFetch (.dsd x) e with
      dispData := e.a
      events := e.events ++ [.displayData e.a] } := by
  show runWords [[.ce], [.ao, .di, .orst]] _ = _
  rw [runWords_one_execute_word hh, applyWord_ao_di_orst]
  rfl

theorem runWords_dsc {e : Engine c} (hh : e.halted = false) (x : Operand) :
    runWords (instrWords .dsc) (latched Opcode.dsc.code x e) = { afterFetch (.dsc x) e with
      dispCtrl := e.a
      events := e.events ++ [.displayControl e.a] } := by
  show runWords [[.ce], [.ao, .dc, .orst]] _ = _
  rw [runWords_one_execute_word hh, applyWord_ao_dc_orst]
  rfl

/-- Settles O43: OI alone of the instruction's words emits, so the one event is that of its last pulse. -/
theorem outOutputsA : Obligations.OutOutputsA :=
  ⟨tableRow_descriptor .out, fun _ x hh => completesAs_runWords hh (existsIn_of_base rfl _) (runWords_out hh x)⟩

/-- Settles O44: no word of the instruction writes KEY, so the last pulse reads the code that stood there at its start. -/
theorem keyLoadsThePendingKeyCode : Obligations.KeyLoadsThePendingKeyCode :=
  ⟨tableRow_descriptor .key, fun _ x hh => completesAs_runWords hh (existsIn_of_base rfl _) (runWords_key hh x)⟩

/-- Settles O45: as OUT, with DI in place of OI. -/
theorem dsdWritesDisplayData : Obligations.DsdWritesDisplayData :=
  ⟨tableRow_descriptor .dsd, fun _ x hh hext => completesAs_runWords hh (existsIn_of_ext hext _) (runWords_dsd hh x)⟩

/-- Settles O46: as OUT, with DC in place of OI. -/
theorem dscWritesDisplayControl : Obligations.DscWritesDisplayControl :=
  ⟨tableRow_descriptor .dsc, fun _ x hh hext => completesAs_runWords hh (existsIn_of_ext hext _) (runWords_dsc hh x)⟩

end Sys2Proof.Machine
end

section
/-! PROOF. O47 and O48: NOP and HLT (spec/46_system.md R210, R211). NOP has no execute word, so its third fetch word ends it;
HLT has one, which halts the engine, and a halted engine is inert by O14. Both exist in both variants. -/

namespace Sys2Proof.Machine

variable {c : Config}

theorem runWords_nop {e : Engine c} (hh : e.halted = false) (x : Operand) :
    runWords (instrWords .nop) (latched Opcode.nop.code x e) = afterFetch (.nop x) e := by
  show runWords [[.ce, .orst]] _ = _
  rw [runWords_cons, applyWord_ce_orst, runWords_nil]
  · rfl
  · exact hh

theorem runWords_hlt {e : Engine c} (hh : e.halted = false) (x : Operand) :
    runWords (instrWords .hlt) (latched Opcode.hlt.code x e) = { afterFetch (.hlt x) e with halted := true } := by
  show runWords [[.ce], [.halt, .orst]] _ = _
  rw [runWords_one_execute_word hh, applyWord_halt_orst]
  rfl

/-- Settles O47: the one word after the fetched word is latched increments PC and ends the instruction. -/
theorem nopOnlyFetches : Obligations.NopOnlyFetches :=
  ⟨tableRow_descriptor .nop, fun _ x hh => completesAs_runWords hh (existsIn_of_base rfl _) (runWords_nop hh x)⟩

/-- Settles O48: HALT writes `halted` alone, and the state it leaves is inert because it is halted. -/
theorem hltHalts : Obligations.HltHalts := by
  refine ⟨tableRow_descriptor .hlt, fun s x hh => ⟨?completes, ?inert⟩⟩
  case completes => exact completesAs_runWords hh (existsIn_of_base rfl _) (runWords_hlt hh x)
  case inert =>
    rintro t rfl
    exact ⟨pulses_halted rfl, tick_halted rfl, fun _ h => advance_halted rfl h⟩

end Sys2Proof.Machine
end

section
/-! PROOF. O15 and O20: what a fault writes, and the order in which a pulse's faults are decided (spec/60_exceptions.md R224,
R226). A control word is decided in three steps, one lemma each: the first failing check, then the address, then the
write-back, which leaves `fault` alone. -/

namespace Sys2Proof.Machine

variable {c : Config} {cw : ControlWord} {e : Engine c}

/-! ### The three steps of a control word -/

theorem applyWord_of_failedCheck {k : Check} (hk : firstFailedCheck cw e = some k) :
    applyWord cw e = e.raise (.busOrJumpContentionInvariant cw.asSet k) := by
  simp only [applyWord, hk]

theorem applyWord_of_addressFault {addr : BitVec c.wordWidth} (passed : firstFailedCheck cw e = none)
    (hb : addressFault cw e ((busValue cw e).getD 0#c.wordWidth) = some addr) :
    applyWord cw e = e.raise (.addressOutOfRange addr) := by
  simp only [applyWord, passed, hb]

theorem applyWord_of_inRange (passed : firstFailedCheck cw e = none)
    (hb : addressFault cw e ((busValue cw e).getD 0#c.wordWidth) = none) :
    applyWord cw e = writeBack cw ((busValue cw e).getD 0#c.wordWidth) e := by
  simp only [applyWord, passed, hb]

/-- The first failing check is the one with none failing before it in the list. -/
theorem firstFailedCheck_eq_some {before after : List Check} {k : Check}
    (order : [Check.k1, .k2, .k3, .k4, .k5, .k6, .k7, .k8, .k9] = before ++ k :: after)
    (earlier : ∀ j ∈ before, checkFails cw e j = false) (fails : checkFails cw e k = true) :
    firstFailedCheck cw e = some k :=
  List.find?_eq_some_iff_append.mpr ⟨fails, before, after, order, fun j hj => by simp [earlier j hj]⟩

theorem firstFailedCheck_eq_none (passes : ∀ j, checkFails cw e j = false) : firstFailedCheck cw e = none :=
  List.find?_eq_none.mpr fun j _ => by simp [passes j]

/-- A load of an address that is none faults with the bus value, whether MAR or PC takes it. -/
theorem addressFault_eq_some {bus : BitVec c.wordWidth} (loads : .mi ∈ cw ∨ nload cw e = 1)
    (outside : c.memSize ≤ bus.toNat) : addressFault cw e bus = some bus := by
  unfold addressFault
  obtain mi | jump := loads
  · rw [if_pos (by simp [(has_iff_mem cw .mi).mpr mi, outside])]
  · split
    · rfl
    · rw [if_pos (by simp [jump, outside])]

/-! ### What a fault writes -/

theorem applyWord_raises (changed : (applyWord cw e).fault ≠ e.fault) : ∃ f, f ≠ .none ∧ applyWord cw e = e.raise f := by
  obtain raised | ⟨-, -, written⟩ := applyWord_cases cw e
  · exact raised
  · exact absurd (by rw [written, writeBack_fault]) changed

theorem pulse_raises (changed : (pulse e).fault ≠ e.fault) : ∃ f, f ≠ .none ∧ pulse e = e.raise f := by
  obtain ⟨-, inert⟩ | ⟨-, -, -, raised⟩ | ⟨-, -, applied⟩ := pulse_cases e
  · exact absurd (by rw [inert]) changed
  · exact ⟨_, by simp, raised⟩
  · rw [applied] at changed ⊢
    exact applyWord_raises changed

/-- Settles O15: fault entry is the only way `fault` changes, and it is the record update of the statement. -/
theorem faultingPulseWritesNothingElse : Obligations.FaultingPulseWritesNothingElse :=
  fun _ _ => ⟨pulse_raises, fun _ => applyWord_raises⟩

/-- Settles O20: one step of the pulse for each clause; the last rests on O15, since fault entry halts. -/
theorem faultsFollowThePriorityOrder : Obligations.FaultsFollowThePriorityOrder := by
  refine ⟨fun c e => pulse_invalid, ?check, ?address, ?last⟩
  case check =>
    intro c e cw before after k order earlier fails
    exact applyWord_of_failedCheck (firstFailedCheck_eq_some order earlier fails)
  case address =>
    intro c e cw bus passes driven loads outside
    refine applyWord_of_addressFault (firstFailedCheck_eq_none passes) ?_
    rw [driven]
    exact addressFault_eq_some loads outside
  case last =>
    intro c e n changed
    obtain ⟨f, -, raised⟩ := pulse_raises changed
    exact pulses_halted (by rw [raised, raise_halted]) n

end Sys2Proof.Machine
end

section
/-! PROOF. O22: with the table, only RET can raise AddressOutOfRange (spec/60_exceptions.md R222). Every other word that loads
an address takes it from PC or IR_B, which hold H bits and so cannot leave memory (`half_lt_memSize`). -/

namespace Sys2Proof.Machine

variable {c : Config} {cw : ControlWord} {e : Engine c}

/-- The signals that load MAR or PC from the bus (spec/40_pulse_engine.md R113). -/
def addressSignals : List Signal := [.mi, .ju, .jcy, .jzr]

/-- The word puts an H-bit register on the bus: PC, or IR_B, before which RO is looked at. -/
def ControlWord.drivesHalfWord (cw : ControlWord) : Bool := cw.has .co || (!cw.has .ro && cw.has .io)

/-- The word loads no address, or one from an H-bit register. -/
def ControlWord.loadsInRange (cw : ControlWord) : Bool :=
  addressSignals.all (fun x => !cw.has x) || cw.drivesHalfWord

theorem busValue_of_drivesHalfWord (h : cw.drivesHalfWord = true) (e : Engine c) :
    ∃ x, busValue cw e = some (onBus c x) := by
  simp only [ControlWord.drivesHalfWord, Bool.or_eq_true, Bool.and_eq_true, Bool.not_eq_true'] at h
  cases hco : cw.has .co with
  | true => exact ⟨e.pc, by simp [busValue, hco]⟩
  | false =>
    obtain ⟨hro, hio⟩ := h.resolve_left (by simp [hco])
    exact ⟨e.irB, by simp [busValue, hco, hro, hio]⟩

theorem addressFault_of_loadsInRange (h : cw.loadsInRange = true) (e : Engine c) :
    addressFault cw e ((busValue cw e).getD 0#c.wordWidth) = none := by
  obtain noLoad | half := (Bool.or_eq_true ..).mp h
  · have absent : ∀ x ∈ addressSignals, x ∉ cw := by simpa [← has_eq_false] using noLoad
    have noMi := (has_eq_false cw .mi).mpr (absent .mi (by decide))
    have noJump := nload_eq_zero (absent .ju (by decide)) (absent .jcy (by decide)) (absent .jzr (by decide)) e
    simp [addressFault, noMi, noJump]
  · obtain ⟨x, driven⟩ := busValue_of_drivesHalfWord half e
    simp [addressFault, driven, memSize_not_le]

/-- Looked up in the table: RET's execute word is the only one that takes an address from a whole memory word. -/
theorem controlWord_loadsInRange (v : Variant) (irA : BitVec v.halfWidth) (k : Microstep) :
    (controlWord v irA k).loadsInRange = true ∨ opcodeOf v irA = some .ret ∧ k = .t4 := by
  have third : ∀ op, (thirdFetchWord (some op)).loadsInRange = true := by intro op; cases op <;> decide
  have execute : ∀ op k, 4 ≤ Microstep.number k →
      (execWord op k).loadsInRange = true ∨ op = .ret ∧ k = .t4 := by
    intro op k; cases op <;> cases k <;> decide
  cases hop : opcodeOf v irA with
  | none =>
    cases k with
    | t1 | t2 => exact .inl rfl
    | t3 | t4 | t5 | t6 | t7 => exact .inl (by simp only [controlWord, hop]; rfl)
  | some op =>
    cases k with
    | t1 | t2 => exact .inl rfl
    | t3 => exact .inl (by simp only [controlWord, hop, third])
    | t4 | t5 | t6 | t7 =>
      rw [controlWord_of_execute (by decide) hop, Option.some.injEq]
      exact execute op _ (by decide)

/-- A word that loads addresses in range never raises AddressOutOfRange. -/
theorem applyWord_fault_of_loadsInRange (h : cw.loadsInRange = true) {addr : BitVec c.wordWidth}
    (before : e.fault ≠ .addressOutOfRange addr) : (applyWord cw e).fault ≠ .addressOutOfRange addr := by
  cases hk : firstFailedCheck cw e with
  | some k => simp [applyWord_of_failedCheck hk]
  | none => rwa [applyWord_of_inRange hk (addressFault_of_loadsInRange h e), writeBack_fault]

/-- RET's pulse raises AddressOutOfRange of the popped word alone, and of none that is an address. -/
theorem popped_of_ret_fault {addr : BitVec c.wordWidth} (before : e.fault ≠ .addressOutOfRange addr)
    (after : (applyWord [.spo, .ju, .orst] e).fault = .addressOutOfRange addr) :
    addr = poppedWord e ∧ c.memSize ≤ (poppedWord e).toNat := by
  by_cases outside : c.memSize ≤ (poppedWord e).toNat
  · rw [applyWord_spo_ju_orst_fault e outside, raise_fault] at after
    exact ⟨(FaultValue.addressOutOfRange.inj after).symm, outside⟩
  · rw [applyWord_spo_ju_orst e (Nat.lt_of_not_le outside)] at after
    exact absurd after before

/-- RET exists in EXT alone (spec/30_encoding.md R88). -/
theorem variant_of_ret {v : Variant} {irA : BitVec v.halfWidth} (h : opcodeOf v irA = some .ret) : v = .ext := by
  obtain ⟨-, available⟩ := opcodeOf_some h
  cases v with
  | base => exact absurd available (by decide)
  | ext => rfl

/-- Settles O22: the pulse applies a word of the table, which is RET's, and the popped word is at least M = 256. -/
theorem addressOutOfRangeOnlyFromRet : Obligations.AddressOutOfRangeOnlyFromRet := by
  intro c e addr before after
  obtain ⟨-, inert⟩ | ⟨-, -, -, raised⟩ | ⟨-, -, applied⟩ := pulse_cases e
  · exact absurd (inert ▸ after) before
  · simp [raised] at after
  · rw [applied] at after
    obtain inRange | ⟨hret, hk⟩ := controlWord_loadsInRange c.variant e.irA e.microstep
    · exact absurd after (applyWord_fault_of_loadsInRange inRange before)
    · have word : controlWord c.variant e.irA e.microstep = [.spo, .ju, .orst] := by
        rw [controlWord_of_execute (by simp [hk, Microstep.number]) hret, hk]
        rfl
      rw [word] at after
      obtain ⟨rfl, outside⟩ := popped_of_ret_fault before after
      have ext := variant_of_ret hret
      have size : c.memSize = 256 := by rw [Config.memSize, ext]
      exact ⟨ext, hret, hk, rfl, size ▸ outside⟩

end Sys2Proof.Machine
end

section
/-! PROOF. O60: the snapshot's active signals are those of the next pulse (spec/60_exceptions.md R242). Both look at `halted`
and at InvalidOpcode before the control word, so the cases of a pulse are the cases of the snapshot. -/

namespace Sys2Proof.Machine

variable {c : Config} {e : Engine c}

theorem activeSignals_halted (hh : e.halted = true) : e.activeSignals = [] := by
  simp [Engine.activeSignals, hh]

theorem activeSignals_invalid (h4 : 4 ≤ e.microstep.number) (hop : opcodeOf c.variant e.irA = none) :
    e.activeSignals = [] := by
  simp [Engine.activeSignals, invalidAtExecute, h4, hop]

theorem activeSignals_running (hh : e.halted = false)
    (hvalid : 4 ≤ e.microstep.number → ∃ op, opcodeOf c.variant e.irA = some op) :
    e.activeSignals = controlWord c.variant e.irA e.microstep := by
  simp [Engine.activeSignals, hh, invalidAtExecute_eq_false hvalid]

/-- Settles O60, case by case of the next pulse. -/
theorem snapshotShowsTheNextControlWord : Obligations.SnapshotShowsTheNextControlWord := by
  refine fun s => ⟨rfl, activeSignals_halted, fun running => ?_⟩
  obtain ⟨hh, -⟩ | ⟨-, h4, hop, -⟩ | ⟨hh, hvalid, applied⟩ := pulse_cases s.engine
  · simp [hh] at running
  · exact .inl ⟨h4, hop, activeSignals_invalid h4 hop⟩
  · have shown : s.snapshot.activeSignals = controlWord s.cfg.variant s.engine.irA s.engine.microstep :=
      activeSignals_running hh hvalid
    exact .inr ⟨shown, shown ▸ applied⟩

end Sys2Proof.Machine
end

section
/-! PROOF. O51 and O54: who writes the flags, and what reset sets (spec/70_reset_and_hazards.md R250, R262). The rows of the
table that are not flag-affecting hold no signal of FLAGWRITERS, so their words hold both flags, one word after the other. -/

namespace Sys2Proof.Machine

variable {c : Config}

/-- A quantity that each of the words keeps is kept by running them. -/
theorem runWords_keeps {α : Type} (field : Engine c → α) {words : List ControlWord}
    (kept : ∀ cw ∈ words, ∀ e, field (applyWord cw e) = field e) (e : Engine c) : field (runWords words e) = field e := by
  induction words generalizing e with
  | nil => rfl
  | cons cw rest ih =>
    obtain ⟨hcw, hrest⟩ := List.forall_mem_cons.mp kept
    cases hh : e.halted with
    | true => rw [runWords_halted hh]
    | false => rw [runWords_cons hh, ih hrest, hcw]

theorem applyWord_carry_unwritten {cw : ControlWord} (h : ∀ x ∈ flagWriters, x ∉ cw) (e : Engine c) :
    (applyWord cw e).carry = e.carry :=
  applyWord_keeps _ (by simp) (by simp [nextCarry_unwritten h])

theorem applyWord_zero_unwritten {cw : ControlWord} (h : ∀ x ∈ flagWriters, x ∉ cw) (e : Engine c) :
    (applyWord cw e).zero = e.zero :=
  applyWord_keeps _ (by simp) (by simp [nextZero_unwritten h])

/-- Where the table's flag-affecting column is false, no word of the row writes a flag. -/
theorem flagWriters_notMem_instrWords {op : Opcode} (h : (descriptor op).flagAffecting = false) :
    ∀ cw ∈ instrWords op, ∀ x ∈ flagWriters, x ∉ cw := by
  revert h
  cases op <;> decide

theorem flagAffecting_iff (op : Opcode) :
    (descriptor op).flagAffecting = true ↔ op = .add ∨ op = .sub ∨ op = .shl ∨ op = .shr := by
  cases op <;> decide

/-- Settles O51: a halted engine keeps its flags with the rest of its state, and on a running one `exec` runs the row's
words. -/
theorem onlyArithmeticAndShiftsWriteFlags : Obligations.OnlyArithmeticAndShiftsWriteFlags := by
  refine ⟨fun s i hop hflags => ?held, flagAffecting_iff, fun s => ⟨rfl, rfl⟩⟩
  case held =>
    cases hh : s.engine.halted with
    | true => exact ⟨s.engine, exec_halted hh hop, rfl, rfl⟩
    | false =>
      have unwritten := flagWriters_notMem_instrWords hflags
      exact ⟨_, exec_running hh hop,
        runWords_keeps (·.carry) (fun cw hcw => applyWord_carry_unwritten (unwritten cw hcw)) _,
        runWords_keeps (·.zero) (fun cw hcw => applyWord_zero_unwritten (unwritten cw hcw)) _⟩

/-- Reset is construction, with KEY, memory and the events of the engine it is made on (R251, R252). -/
theorem applyReset_eq_initial (e : Engine c) :
    e.applyReset = { Engine.initial c with key := e.key, mem := e.mem, events := e.events } := rfl

/-- Settles O54: the values of R250 are those of construction. -/
theorem resetSetsTheListedFields : Obligations.ResetSetsTheListedFields := by
  refine fun s => ⟨applyReset_cfg s, applyReset_clock s, applyReset_eq_initial s.engine, fun c => ?values⟩
  case values => exact ⟨rfl, rfl, rfl, rfl, rfl, rfl, rfl, rfl, rfl, rfl, rfl, rfl, rfl, rfl, rfl⟩

end Sys2Proof.Machine
end

section
/-! PROOF. O55: construction from images (spec/70_reset_and_hazards.md R258). Images applied in order are one image, their
concatenation; the last entry of an image is the last write, so its memory is read by induction from the end. -/

namespace Sys2Proof.Machine

variable {c : Config}

theorem inRange_iff {image : Image} : image.inRange c = true ↔ ∀ entry ∈ image, entry.1 < c.memSize := by
  simp [Image.inRange]

theorem load_flatten (images : List Image) (mem : Memory c.wordWidth) :
    images.foldl (fun m image => image.load c m) mem = Image.load c images.flatten mem :=
  List.foldl_flatten.symm

theorem load_concat (image : Image) (entry : Nat × Nat) (mem : Memory c.wordWidth) :
    Image.load c (image ++ [entry]) mem = (image.load c mem).write entry.1 (BitVec.ofNat c.wordWidth entry.2) := by
  simp [Image.load]

/-- The word at an address depends on the concatenation of the images alone. -/
theorem imageWord_flatten (w : Nat) (images : List Image) (addr : Nat) :
    imageWord w [images.flatten] addr = imageWord w images addr := by
  simp [imageWord]

/-- The last entry of an image decides its own address and no other. -/
theorem imageWord_concat (w : Nat) (image : Image) (entry : Nat × Nat) (addr : Nat) :
    imageWord w [image ++ [entry]] addr
      = if addr = entry.1 then BitVec.ofNat w entry.2 else imageWord w [image] addr := by
  by_cases named : entry.1 = addr
  · simp [imageWord, named]
  · simp [imageWord, named, Ne.symm named]

/-- What an image leaves in an empty memory, read at any address. -/
theorem read_load {image : Image} (hr : image.inRange c = true) (addr : Nat) :
    (image.load c []).read addr = imageWord c.wordWidth [image] addr := by
  induction image using List.reverseRecOn with
  | nil => rfl
  | append_singleton image entry ih =>
    have inside : Image.inRange c image = true :=
      inRange_iff.mpr fun x hx => inRange_iff.mp hr x (List.mem_append_left _ hx)
    rw [load_concat, imageWord_concat, read_write_from (size := c.memSize) _ _ _ 0 (load_wf c image inside [] rfl),
      ih inside]

theorem construct_eq_none {images : List Image} (h : ∃ image ∈ images, ∃ entry ∈ image, c.memSize ≤ entry.1) :
    State.construct c images = none := by
  obtain ⟨image, himage, entry, hentry, outside⟩ := h
  refine if_neg fun all => ?_
  exact absurd (inRange_iff.mp (List.all_eq_true.mp all image himage) entry hentry) (Nat.not_lt.mpr outside)

theorem construct_eq_some {images : List Image} (h : ∀ image ∈ images, ∀ entry ∈ image, entry.1 < c.memSize) :
    State.construct c images = some
      { cfg := c
        engine := { Engine.initial c with mem := Image.load c images.flatten [] }
        clock := (State.initial c).clock } := by
  rw [← load_flatten]
  exact if_pos (List.all_eq_true.mpr fun image himage => inRange_iff.mpr (h image himage))

/-- Settles O55: the memory is that of the concatenated images, and reset finds nothing to change at construction. -/
theorem constructionLoadsImages : Obligations.ConstructionLoadsImages := by
  refine fun c images => ⟨construct_eq_none, fun inRange => ?built, rfl, rfl⟩
  case built =>
    have allInRange : Image.inRange c images.flatten = true := by
      refine inRange_iff.mpr fun entry hentry => ?_
      obtain ⟨image, himage, hmem⟩ := List.mem_flatten.mp hentry
      exact inRange image himage entry hmem
    exact ⟨_, _, construct_eq_some inRange, load_wf c _ allInRange [] rfl,
      fun addr => (read_load allInRange addr).trans (imageWord_flatten ..)⟩

end Sys2Proof.Machine
end
